-- ==== Sys2Proof/Word.lean ====
section
/-! DEFINITION. The bit-vector types of the machine (00_scope.md R3, R12): every value is unsigned, bit 0 is the
least significant bit, and nothing is ever sign-extended. -/

namespace Sys2Proof

/-- A register, an immediate or one location of `MEM`: 8 bits (R3 REG_W, R50). -/
abbrev Byte := BitVec 8

/-- `PC`, `I`, a stack slot or an instruction word: 16 bits (R3 PC_W, I_W, SLOT_W; R80). -/
abbrev Word := BitVec 16

/-- One of the four 4-bit fields of an instruction word (R82). -/
abbrev Nibble := BitVec 4

/-- The 12-bit field `NNN` of an instruction word (R13). -/
abbrev Addr := BitVec 12

/-- Widening with zeros to 16 bits, `zext_16` of R12; the only widening the machine has. -/
abbrev zext16 {n : Nat} (v : BitVec n) : Word := v.setWidth 16

end Sys2Proof
end

