-- ==== Sys2Proof/Syntax.lean ====
section
/-! DEFINITION. The abstract syntax: one constructor per row of the closed opcode table (30_encoding.md R86), in the
table's order, each with the fields of its format (R83) at the width the field has in the word. -/

namespace Sys2Proof

/-- A register operand, the 4-bit field X or Y: it names `V[X]` or `V[Y]`, and all sixteen values are valid (R21, R85). -/
abbrev Reg := Nibble

/-- The 35 instructions (R1, R86). `x`, `y`: the register fields; `nn`: the immediate byte; `nnn`: the 12-bit
address; `n`: the row count of DRW. SHR and SHL keep the Y field they ignore, so that no bit of a word is lost (R89, R93). -/
inductive Instr where
  /-- 0000 -/
  | nop
  /-- 00E0 -/
  | cls
  /-- 00EE -/
  | ret
  /-- 1NNN -/
  | jp (nnn : Addr)
  /-- 2NNN -/
  | call (nnn : Addr)
  /-- 3XNN -/
  | sei (x : Reg) (nn : Byte)
  /-- 4XNN -/
  | snei (x : Reg) (nn : Byte)
  /-- 5XY0 -/
  | ser (x y : Reg)
  /-- 6XNN -/
  | ldi (x : Reg) (nn : Byte)
  /-- 7XNN -/
  | addi (x : Reg) (nn : Byte)
  /-- 8XY0 -/
  | mov (x y : Reg)
  /-- 8XY1 -/
  | or (x y : Reg)
  /-- 8XY2 -/
  | and (x y : Reg)
  /-- 8XY3 -/
  | xor (x y : Reg)
  /-- 8XY4 -/
  | add (x y : Reg)
  /-- 8XY5 -/
  | sub (x y : Reg)
  /-- 8XY6 -/
  | shr (x y : Reg)
  /-- 8XY7 -/
  | subn (x y : Reg)
  /-- 8XYE -/
  | shl (x y : Reg)
  /-- 9XY0 -/
  | sner (x y : Reg)
  /-- ANNN -/
  | ldidx (nnn : Addr)
  /-- BNNN -/
  | jpv0 (nnn : Addr)
  /-- CXNN -/
  | rnd (x : Reg) (nn : Byte)
  /-- DXYN -/
  | drw (x y : Reg) (n : Nibble)
  /-- EX9E -/
  | skp (x : Reg)
  /-- EXA1 -/
  | sknp (x : Reg)
  /-- FX07 -/
  | lddt (x : Reg)
  /-- FX0A -/
  | wkey (x : Reg)
  /-- FX15 -/
  | stdt (x : Reg)
  /-- FX18 -/
  | stst (x : Reg)
  /-- FX1E -/
  | addidx (x : Reg)
  /-- FX29 -/
  | glyph (x : Reg)
  /-- FX33 -/
  | bcd (x : Reg)
  /-- FX55 -/
  | stm (x : Reg)
  /-- FX65 -/
  | ldm (x : Reg)
  deriving DecidableEq, Repr

end Sys2Proof
end

