-- ==== Sys2Proof/WellFormed.lean ====
section
/-! DEFINITION. The closed opcode table as the spec prints it (30_encoding.md R86), and what is well formed: a word when it
matches a row, an instruction when its row is one of the table's. No operand value is ill formed: each operand has
exactly the width of its field, and the spec makes no value of a field illegal (R21, R85, R89, R102). -/

namespace Sys2Proof

/-- One row of the opcode table: a word `w` is this instruction exactly when `w & mask = bits` (R86). -/
structure OpcodeRow where
  mnemonic : String
  /-- the column "match" -/
  bits : Word
  mask : Word
  deriving DecidableEq, Repr

/-- The condition of R86 for one row. -/
def OpcodeRow.matches (r : OpcodeRow) (w : Word) : Bool := w &&& r.mask == r.bits

/-- The 35 rows of R86, in the table's order. -/
def opcodeTable : List OpcodeRow :=
    [⟨"NOP", 0x0000, 0xFFFF⟩,
     ⟨"CLS", 0x00E0, 0xFFFF⟩,
     ⟨"RET", 0x00EE, 0xFFFF⟩,
     ⟨"JP", 0x1000, 0xF000⟩,
     ⟨"CALL", 0x2000, 0xF000⟩,
     ⟨"SEI", 0x3000, 0xF000⟩,
     ⟨"SNEI", 0x4000, 0xF000⟩]
    ++ [⟨"SER", 0x5000, 0xF00F⟩,
     ⟨"LDI", 0x6000, 0xF000⟩,
     ⟨"ADDI", 0x7000, 0xF000⟩,
     ⟨"MOV", 0x8000, 0xF00F⟩,
     ⟨"OR", 0x8001, 0xF00F⟩,
     ⟨"AND", 0x8002, 0xF00F⟩,
     ⟨"XOR", 0x8003, 0xF00F⟩]
    ++ [⟨"ADD", 0x8004, 0xF00F⟩,
     ⟨"SUB", 0x8005, 0xF00F⟩,
     ⟨"SHR", 0x8006, 0xF00F⟩,
     ⟨"SUBN", 0x8007, 0xF00F⟩,
     ⟨"SHL", 0x800E, 0xF00F⟩,
     ⟨"SNER", 0x9000, 0xF00F⟩,
     ⟨"LDIDX", 0xA000, 0xF000⟩]
    ++ [⟨"JPV0", 0xB000, 0xF000⟩,
     ⟨"RND", 0xC000, 0xF000⟩,
     ⟨"DRW", 0xD000, 0xF000⟩,
     ⟨"SKP", 0xE09E, 0xF0FF⟩,
     ⟨"SKNP", 0xE0A1, 0xF0FF⟩,
     ⟨"LDDT", 0xF007, 0xF0FF⟩,
     ⟨"WKEY", 0xF00A, 0xF0FF⟩]
    ++ [⟨"STDT", 0xF015, 0xF0FF⟩,
     ⟨"STST", 0xF018, 0xF0FF⟩,
     ⟨"ADDIDX", 0xF01E, 0xF0FF⟩,
     ⟨"GLYPH", 0xF029, 0xF0FF⟩,
     ⟨"BCD", 0xF033, 0xF0FF⟩,
     ⟨"STM", 0xF055, 0xF0FF⟩,
     ⟨"LDM", 0xF065, 0xF0FF⟩]

/-- The row of R86 that an instruction is an instance of. -/
def Instr.row : Instr → OpcodeRow
  | .nop => ⟨"NOP", 0x0000, 0xFFFF⟩
  | .cls => ⟨"CLS", 0x00E0, 0xFFFF⟩
  | .ret => ⟨"RET", 0x00EE, 0xFFFF⟩
  | .jp _ => ⟨"JP", 0x1000, 0xF000⟩
  | .call _ => ⟨"CALL", 0x2000, 0xF000⟩
  | .sei _ _ => ⟨"SEI", 0x3000, 0xF000⟩
  | .snei _ _ => ⟨"SNEI", 0x4000, 0xF000⟩
  | .ser _ _ => ⟨"SER", 0x5000, 0xF00F⟩
  | .ldi _ _ => ⟨"LDI", 0x6000, 0xF000⟩
  | .addi _ _ => ⟨"ADDI", 0x7000, 0xF000⟩
  | .mov _ _ => ⟨"MOV", 0x8000, 0xF00F⟩
  | .or _ _ => ⟨"OR", 0x8001, 0xF00F⟩
  | .and _ _ => ⟨"AND", 0x8002, 0xF00F⟩
  | .xor _ _ => ⟨"XOR", 0x8003, 0xF00F⟩
  | .add _ _ => ⟨"ADD", 0x8004, 0xF00F⟩
  | .sub _ _ => ⟨"SUB", 0x8005, 0xF00F⟩
  | .shr _ _ => ⟨"SHR", 0x8006, 0xF00F⟩
  | .subn _ _ => ⟨"SUBN", 0x8007, 0xF00F⟩
  | .shl _ _ => ⟨"SHL", 0x800E, 0xF00F⟩
  | .sner _ _ => ⟨"SNER", 0x9000, 0xF00F⟩
  | .ldidx _ => ⟨"LDIDX", 0xA000, 0xF000⟩
  | .jpv0 _ => ⟨"JPV0", 0xB000, 0xF000⟩
  | .rnd _ _ => ⟨"RND", 0xC000, 0xF000⟩
  | .drw _ _ _ => ⟨"DRW", 0xD000, 0xF000⟩
  | .skp _ => ⟨"SKP", 0xE09E, 0xF0FF⟩
  | .sknp _ => ⟨"SKNP", 0xE0A1, 0xF0FF⟩
  | .lddt _ => ⟨"LDDT", 0xF007, 0xF0FF⟩
  | .wkey _ => ⟨"WKEY", 0xF00A, 0xF0FF⟩
  | .stdt _ => ⟨"STDT", 0xF015, 0xF0FF⟩
  | .stst _ => ⟨"STST", 0xF018, 0xF0FF⟩
  | .addidx _ => ⟨"ADDIDX", 0xF01E, 0xF0FF⟩
  | .glyph _ => ⟨"GLYPH", 0xF029, 0xF0FF⟩
  | .bcd _ => ⟨"BCD", 0xF033, 0xF0FF⟩
  | .stm _ => ⟨"STM", 0xF055, 0xF0FF⟩
  | .ldm _ => ⟨"LDM", 0xF065, 0xF0FF⟩

/-- The spec's mnemonic of an instruction (R92). -/
def Instr.mnemonic (i : Instr) : String := i.row.mnemonic

/-- A word is legal when it matches a row; every other word is illegal (R86, R88). -/
def wordLegal (w : Word) : Bool := opcodeTable.any (·.matches w)

/-- An instruction is well formed when its row is a row of the closed table (R2). -/
def Instr.wellFormed (i : Instr) : Bool := opcodeTable.contains i.row

end Sys2Proof
end

