-- ==== Sys2Proof/Decode.lean ====
section
/-! DEFINITION. From words to instructions and back (30_encoding.md R80 to R93): the field extractors, the decoder on
words and on bytes, the encoder, and the assembler's line of an instruction. -/

namespace Sys2Proof

/-- The field `w[lo+len-1 : lo]` of a word (R12). -/
def field (w : Word) (lo len : Nat) : BitVec len := w.extractLsb' lo len

/-- d1, the major opcode, `w[15:12]` (R82). -/
def fieldD1 (w : Word) : Nibble := field w 12 4

/-- X, `w[11:8]` (R13, R82). -/
def fieldX (w : Word) : Reg := field w 8 4

/-- Y, `w[7:4]` (R13, R82). -/
def fieldY (w : Word) : Reg := field w 4 4

/-- N, `w[3:0]` (R13, R82). -/
def fieldN (w : Word) : Nibble := field w 0 4

/-- NN, `w[7:0]` (R13, R82). -/
def fieldNN (w : Word) : Byte := field w 0 8

/-- NNN, `w[11:0]` (R13, R82). -/
def fieldNNN (w : Word) : Addr := field w 0 12

/-- Family 0: three words and no other (R86 rows 1 to 3, R88). -/
def decodeZero (w : Word) : Option Instr :=
  if w = 0x0000 then some .nop
  else if w = 0x00E0 then some .cls
  else if w = 0x00EE then some .ret
  else none

/-- Family 8: the low nibble is the minor opcode (R86 rows 11 to 19, R88). -/
def decodeEight (x y : Reg) (n : Nibble) : Option Instr :=
  if n = 0x0 then some (.mov x y)
  else if n = 0x1 then some (.or x y)
  else if n = 0x2 then some (.and x y)
  else if n = 0x3 then some (.xor x y)
  else if n = 0x4 then some (.add x y)
  else if n = 0x5 then some (.sub x y)
  else if n = 0x6 then some (.shr x y)
  else if n = 0x7 then some (.subn x y)
  else if n = 0xE then some (.shl x y)
  else none

/-- Family E: the low byte is the minor opcode (R86 rows 25 and 26, R88). -/
def decodeE (x : Reg) (nn : Byte) : Option Instr :=
  if nn = 0x9E then some (.skp x)
  else if nn = 0xA1 then some (.sknp x)
  else none

/-- Family F: the low byte is the minor opcode (R86 rows 27 to 35, R88). -/
def decodeF (x : Reg) (nn : Byte) : Option Instr :=
  if nn = 0x07 then some (.lddt x)
  else if nn = 0x0A then some (.wkey x)
  else if nn = 0x15 then some (.stdt x)
  else if nn = 0x18 then some (.stst x)
  else if nn = 0x1E then some (.addidx x)
  else if nn = 0x29 then some (.glyph x)
  else if nn = 0x33 then some (.bcd x)
  else if nn = 0x55 then some (.stm x)
  else if nn = 0x65 then some (.ldm x)
  else none

/-- Families 5 and 9: the low nibble must be 0 (R86 rows 8 and 20, R88). -/
def decodeLowZero (n : Nibble) (i : Instr) : Option Instr := if n = 0x0 then some i else none

/-- The decoder on a word (R86): a function of all four nibbles; none for an illegal word (R88). -/
def decodeWord (w : Word) : Option Instr :=
  match (fieldD1 w).toNat with
  | 0x0 => decodeZero w
  | 0x1 => some (.jp (fieldNNN w))
  | 0x2 => some (.call (fieldNNN w))
  | 0x3 => some (.sei (fieldX w) (fieldNN w))
  | 0x4 => some (.snei (fieldX w) (fieldNN w))
  | 0x5 => decodeLowZero (fieldN w) (.ser (fieldX w) (fieldY w))
  | 0x6 => some (.ldi (fieldX w) (fieldNN w))
  | 0x7 => some (.addi (fieldX w) (fieldNN w))
  | 0x8 => decodeEight (fieldX w) (fieldY w) (fieldN w)
  | 0x9 => decodeLowZero (fieldN w) (.sner (fieldX w) (fieldY w))
  | 0xA => some (.ldidx (fieldNNN w))
  | 0xB => some (.jpv0 (fieldNNN w))
  | 0xC => some (.rnd (fieldX w) (fieldNN w))
  | 0xD => some (.drw (fieldX w) (fieldY w) (fieldN w))
  | 0xE => decodeE (fieldX w) (fieldNN w)
  | _ => decodeF (fieldX w) (fieldNN w)

/-- The word of two bytes, the one at the lower address in bits 15 to 8 (R81, 20_memory.md R58). -/
def bigEndian (hi lo : Byte) : Word := hi ++ lo

/-- The two bytes of a word as memory holds them, the high byte first (R58, R93). -/
def wordBytes (w : Word) : List Byte := [field w 8 8, field w 0 8]

/-- Why bytes are not an instruction. -/
inductive DecodeError where
  /-- the first two bytes are a word of R88 -/
  | illegalWord (w : Word)
  /-- fewer than two bytes are left (every instruction is two bytes, R80) -/
  | tooShort
  deriving DecidableEq, Repr

/-- The decoder on any bytes: the instruction of the first two and the bytes after them (R80, R81). -/
def decodeBytes : List Byte → Except DecodeError (Instr × List Byte)
  | hi :: lo :: rest =>
    match decodeWord (bigEndian hi lo) with
    | some i => .ok (i, rest)
    | none => .error (.illegalWord (bigEndian hi lo))
  | _ => .error .tooShort

/-- The host's question about one row of the opcode table: what the decoder reads from the word whose low `nbits` bits
are `w`, laid out in memory order. -/
def decodeTableWord (nbits w : Nat) : Option Instr :=
  match decodeBytes (wordBytes (BitVec.ofNat 16 (w % 2 ^ nbits))) with
  | .ok (i, _) => some i
  | .error _ => none

/-- Format A: opcode, NNN (R83). -/
def formatA (d1 : Nibble) (nnn : Addr) : Word := d1 ++ nnn

/-- Format XI: opcode, X, NN (R83). -/
def formatXI (d1 : Nibble) (x : Reg) (nn : Byte) : Word := (d1 ++ x) ++ nn

/-- Formats XY and XYN: opcode, X, Y and the low nibble (R83). -/
def formatXY (d1 : Nibble) (x y : Reg) (n : Nibble) : Word := (d1 ++ x) ++ (y ++ n)

/-- The encoder: the word of an instruction, from the match column and the formats of R83 and R86. -/
def encode : Instr → Word
  | .nop => 0x0000
  | .cls => 0x00E0
  | .ret => 0x00EE
  | .jp nnn => formatA 0x1 nnn
  | .call nnn => formatA 0x2 nnn
  | .sei x nn => formatXI 0x3 x nn
  | .snei x nn => formatXI 0x4 x nn
  | .ser x y => formatXY 0x5 x y 0x0
  | .ldi x nn => formatXI 0x6 x nn
  | .addi x nn => formatXI 0x7 x nn
  | .mov x y => formatXY 0x8 x y 0x0
  | .or x y => formatXY 0x8 x y 0x1
  | .and x y => formatXY 0x8 x y 0x2
  | .xor x y => formatXY 0x8 x y 0x3
  | .add x y => formatXY 0x8 x y 0x4
  | .sub x y => formatXY 0x8 x y 0x5
  | .shr x y => formatXY 0x8 x y 0x6
  | .subn x y => formatXY 0x8 x y 0x7
  | .shl x y => formatXY 0x8 x y 0xE
  | .sner x y => formatXY 0x9 x y 0x0
  | .ldidx nnn => formatA 0xA nnn
  | .jpv0 nnn => formatA 0xB nnn
  | .rnd x nn => formatXI 0xC x nn
  | .drw x y n => formatXY 0xD x y n
  | .skp x => formatXI 0xE x 0x9E
  | .sknp x => formatXI 0xE x 0xA1
  | .lddt x => formatXI 0xF x 0x07
  | .wkey x => formatXI 0xF x 0x0A
  | .stdt x => formatXI 0xF x 0x15
  | .stst x => formatXI 0xF x 0x18
  | .addidx x => formatXI 0xF x 0x1E
  | .glyph x => formatXI 0xF x 0x29
  | .bcd x => formatXI 0xF x 0x33
  | .stm x => formatXI 0xF x 0x55
  | .ldm x => formatXI 0xF x 0x65

/-- An instruction's bytes as a program file and memory hold them (R93). -/
def encodeBytes (i : Instr) : List Byte := wordBytes (encode i)

/-- A register's name, `V0` to `VF` (R21, R92). -/
def regName (x : Reg) : String :=
  "V" ++ String.ofList [(("0123456789ABCDEF".toList)[x.toNat]?).getD '0']

/-- The operands of an assembly line, in the order of the fields, numbers in decimal (R92). -/
def Instr.operandText : Instr → List String
  | .nop | .cls | .ret => []
  | .jp nnn | .call nnn | .ldidx nnn | .jpv0 nnn => [toString nnn.toNat]
  | .sei x nn | .snei x nn | .ldi x nn | .addi x nn | .rnd x nn => [regName x, toString nn.toNat]
  | .ser x y | .mov x y | .or x y | .and x y | .xor x y | .add x y | .sub x y | .shr x y | .subn x y | .shl x y
  | .sner x y => [regName x, regName y]
  | .drw x y n => [regName x, regName y, toString n.toNat]
  | .skp x | .sknp x | .lddt x | .wkey x | .stdt x | .stst x | .addidx x | .glyph x | .bcd x | .stm x
  | .ldm x => [regName x]

/-- The one line of assembly an instruction disassembles to (R92, R93); SHR and SHL print the Y they ignore. -/
def Instr.assembly (i : Instr) : String :=
  match i.operandText with
  | [] => i.mnemonic
  | ops => i.mnemonic ++ " " ++ String.intercalate ", " ops

/-! Every constructor's decoding, shown on a word written out from R86 (X = 1, Y = 2 or as the spec's examples have it). -/

theorem decodeWord_nop : decodeWord 0x0000 = some .nop := by decide
theorem decodeWord_cls : decodeWord 0x00E0 = some .cls := by decide
theorem decodeWord_ret : decodeWord 0x00EE = some .ret := by decide
theorem decodeWord_jp : decodeWord 0x1ABC = some (.jp 0xABC) := by decide
theorem decodeWord_call : decodeWord 0x220A = some (.call 0x20A) := by decide
theorem decodeWord_sei : decodeWord 0x332A = some (.sei 3 0x2A) := by decide
theorem decodeWord_snei : decodeWord 0x4A42 = some (.snei 0xA 0x42) := by decide
theorem decodeWord_ser : decodeWord 0x5120 = some (.ser 1 2) := by decide
theorem decodeWord_ldi : decodeWord 0x6005 = some (.ldi 0 5) := by decide
theorem decodeWord_addi : decodeWord 0x71FF = some (.addi 1 0xFF) := by decide
theorem decodeWord_mov : decodeWord 0x8120 = some (.mov 1 2) := by decide
theorem decodeWord_or : decodeWord 0x8121 = some (.or 1 2) := by decide
theorem decodeWord_and : decodeWord 0x8122 = some (.and 1 2) := by decide
theorem decodeWord_xor : decodeWord 0x8123 = some (.xor 1 2) := by decide
theorem decodeWord_add : decodeWord 0x8014 = some (.add 0 1) := by decide
theorem decodeWord_sub : decodeWord 0x8015 = some (.sub 0 1) := by decide
theorem decodeWord_shr : decodeWord 0x8126 = some (.shr 1 2) := by decide
theorem decodeWord_subn : decodeWord 0x8017 = some (.subn 0 1) := by decide
theorem decodeWord_shl : decodeWord 0x812E = some (.shl 1 2) := by decide
theorem decodeWord_sner : decodeWord 0x9120 = some (.sner 1 2) := by decide
theorem decodeWord_ldidx : decodeWord 0xA2F0 = some (.ldidx 0x2F0) := by decide
theorem decodeWord_jpv0 : decodeWord 0xB300 = some (.jpv0 0x300) := by decide
theorem decodeWord_rnd : decodeWord 0xC20F = some (.rnd 2 0x0F) := by decide
theorem decodeWord_drw : decodeWord 0xD125 = some (.drw 1 2 5) := by decide
theorem decodeWord_skp : decodeWord 0xE49E = some (.skp 4) := by decide
theorem decodeWord_sknp : decodeWord 0xE4A1 = some (.sknp 4) := by decide
theorem decodeWord_lddt : decodeWord 0xF507 = some (.lddt 5) := by decide
theorem decodeWord_wkey : decodeWord 0xF30A = some (.wkey 3) := by decide
theorem decodeWord_stdt : decodeWord 0xF515 = some (.stdt 5) := by decide
theorem decodeWord_stst : decodeWord 0xF518 = some (.stst 5) := by decide
theorem decodeWord_addidx : decodeWord 0xF21E = some (.addidx 2) := by decide
theorem decodeWord_glyph : decodeWord 0xF329 = some (.glyph 3) := by decide
theorem decodeWord_bcd : decodeWord 0xF033 = some (.bcd 0) := by decide
theorem decodeWord_stm : decodeWord 0xF255 = some (.stm 2) := by decide
theorem decodeWord_ldm : decodeWord 0xF265 = some (.ldm 2) := by decide

end Sys2Proof
end

