-- ==== Sys2Proof/Config.lean ====
section
/-! DEFINITION. What is fixed for a machine and is not part of its state (00_scope.md R3, R4): the named sizes, and the
two parameters whose values the spec leaves open, `FONT` and `rand`, as opaque constants that no proof can look into. -/

namespace Sys2Proof

/-- `MEM_SIZE`: the addresses of `MEM` are 0 to 4095 (R3, R50). -/
@[simp] abbrev Config.memSize : Nat := 4096

/-- `FONT_LEN`: the font table is `MEM[0..79]` (R3, R52); `FONT_BASE` is 0. -/
@[simp] abbrev Config.fontLen : Nat := 80

/-- `GLYPH_LEN`: bytes of one glyph (R3, R54). -/
@[simp] abbrev Config.glyphLen : Nat := 5

/-- `PROG_BASE` and `RESET_PC`: where `load` puts the program and where a reset machine starts (R3, R41). -/
@[simp] abbrev Config.progBase : Nat := 512

/-- `MAX_PROG_LEN`: the longest program `load` accepts, 4096 − 512 bytes (R3, R203). -/
@[simp] abbrev Config.maxProgLen : Nat := 3584

/-- `STACK_DEPTH`: slots of the call stack (R3, R29). -/
@[simp] abbrev Config.stackDepth : Nat := 16

/-- `NKEYS`: latches of the keypad (R3, R35). -/
@[simp] abbrev Config.numKeys : Nat := 16

/-- `DISP_W`: columns of the display (R3, R34). -/
@[simp] abbrev Config.dispW : Nat := 64

/-- `DISP_H`: rows of the display (R3, R34). -/
@[simp] abbrev Config.dispH : Nat := 32

/-- The parameter `FONT`, a function from 0..79 to bytes (R4 (a), R54, decision D16): the spec prints no byte of it, so
it has no body here and every theorem holds for every font. Log entry 1. -/
opaque Config.font : Fin 80 → Byte

/-- The free input `rand` (R4 (b), R189, decision D17): `Config.rand k` is the byte the `k`-th executed RND draws, counting from
0. It has no body, so every theorem holds for every sequence of bytes. Log entry 2. -/
opaque Config.rand : Nat → Byte

end Sys2Proof
end

