-- ==== Sys2Proof/Machine/State.lean ====
section
/-! DEFINITION. The whole state of one machine as plain data (10_state.md R20), the reasons a step can stop, and the state
after `construct` and after reset (R41). -/

namespace Sys2Proof.Machine

/-- The display buffer: 32 rows of 64 pixels, true is on; pixel (x, y) is element x of row y (R34). -/
abbrev Display := Vector (Vector Bool 64) 32

/-- `MEM` as (address, byte) pairs, addresses strictly rising, no pair equal to what an unlisted address reads as
(`Memory.wf` in Machine/Ops.lean). -/
abbrev Memory := List Host.Cell

/-- The fault latch `FAULT` (R38): `valid` false means running; `cause` is a code of 60_exceptions.md R170, 0 while
running; `pc` is the address of the faulting instruction; `info` is per cause. -/
structure FaultLatch where
  valid : Bool
  cause : BitVec 3
  pc : Word
  info : Word
  deriving DecidableEq, Repr

/-- Every element of R20, and the model's own `draws`. -/
structure State where
  /-- `V[0]` to `V[15]`; `V[15]` is VF, the only flag (R21, R22) -/
  v : Vector Byte 16
  /-- `PC`, the address of the next instruction to fetch (R24) -/
  pc : Word
  /-- `I`, the index register (R28) -/
  i : Word
  /-- `STACK[0]` to `STACK[15]` (R29) -/
  stack : Vector Word 16
  /-- `SP`, the number of return addresses on the stack, 0 to 16 (R29) -/
  sp : Fin 17
  /-- `MEM[0]` to `MEM[4095]` (R33, R50) -/
  mem : Memory
  /-- `DISP` (R34) -/
  disp : Display
  /-- `KEY[0]` to `KEY[15]`, true is pressed (R35) -/
  key : Vector Bool 16
  /-- `DT`, the delay timer (R36) -/
  dt : Byte
  /-- `ST`, the sound timer (R37) -/
  st : Byte
  /-- `FAULT` (R38) -/
  fault : FaultLatch
  /-- the model's own field: how many bytes RND has drawn from the free input `rand` (R4 (b), R189). Log entry 2. -/
  draws : Nat
  deriving DecidableEq, Repr

/-- The six faults of 60_exceptions.md R170 with what each records. Raising one is TAKEN as the spec describes it
(R177, `State.enterFault`): the step answers a NEXT state in which only `FAULT` differs. No step answers
`Outcome.fault` (log entry 5), so none of the six is a stop of the model. -/
inductive Fault where
  /-- Raised by `step` on a word of R88; records the word (R171). Safe: decision U1 of the spec. -/
  | illegalInstruction (w : Word)
  /-- Raised by `step` when `PC > 4094`; records PC (R172). Safe: decision D4. -/
  | fetchOutOfRange (pc : Word)
  /-- Raised by DRW, BCD, STM, LDM on a byte above address 4095; records the lowest such address (R173). Safe: decision D2. -/
  | memoryOutOfRange (addr : Nat)
  /-- Raised by CALL at `SP = 16` (R174). Safe: decision D3. -/
  | stackOverflow
  /-- Raised by RET at `SP = 0` (R175). Safe: decision D3. -/
  | stackUnderflow
  /-- Raised by SKP and SKNP on a key index above 15; records `V[X]` (R176). Safe: decision D5. -/
  | keyIndexOutOfRange (k : Byte)
  deriving DecidableEq, Repr

/-- Why a step would have no meaning. -/
inductive Refusal where
  /-- An instruction of the table without a meaning: raised by no arm of `exec`, since all 35 have theirs. Safe. -/
  | notModelled (mnemonic : String)
  deriving DecidableEq, Repr

/-- The state after `construct` and after reset (R41, R200): zero everywhere, PC = 512, `MEM` as reset leaves it, which is
what an unlisted address reads as, so nothing is listed. `draws` starts at 0 (DESIGN CHOICE, log entry 2). -/
def State.reset : State where
  v := Vector.replicate 16 0
  pc := 512
  i := 0
  stack := Vector.replicate 16 0
  sp := 0
  mem := []
  disp := Vector.replicate 32 (Vector.replicate 64 false)
  key := Vector.replicate 16 false
  dt := 0
  st := 0
  fault := ⟨false, 0, 0, 0⟩
  draws := 0

end Sys2Proof.Machine
end

