-- ==== Sys2Proof/Machine/Ops.lean ====
section
/-! DEFINITION. The named operations over memory, registers, the program counter, the stack and the fault latch: every read
and write a meaning makes goes through one of these. -/

namespace Sys2Proof.Machine

open Host (Outcome)

/-! Memory -/

/-- What an address that is not listed reads as: the reset contents of `MEM` (R41, 20_memory.md R52), the font below 80 and 0
from there on. DEDUCED, log entry 4. -/
def unlistedByte (a : Nat) : Byte := if h : a < Config.fontLen then Config.font ⟨a, h⟩ else 0

/-- The canonical form of a memory: addresses strictly rising and inside 0 to 4095, no entry equal to what an unlisted
address reads as. -/
abbrev Memory.wf (m : Memory) : Prop :=
  m.Pairwise (fun c d => c.1 < d.1) ∧ ∀ c ∈ m, c.1 < Config.memSize ∧ c.2 ≠ unlistedByte c.1

/-- `MEM[a]`, for an address 0 to 4095 (R55); the range is checked before by `rangeFault`. -/
def Memory.read : Memory → Nat → Byte
  | [], a => unlistedByte a
  | c :: m, a => if c.1 = a then c.2 else Memory.read m a

/-- The memory without a listed byte at `a`. -/
def Memory.erase (m : Memory) (a : Nat) : Memory := m.filter (fun c => decide (c.1 ≠ a))

/-- A byte listed before the first higher address. -/
def Memory.insert : Memory → Nat → Byte → Memory
  | [], a, b => [(a, b)]
  | c :: m, a, b => if c.1 < a then c :: Memory.insert m a b else (a, b) :: c :: m

/-- `MEM[a] <- b`, for an address 0 to 4095 (R56), keeping the canonical form; the range is checked before by `rangeFault`. -/
def Memory.write (m : Memory) (a : Nat) (b : Byte) : Memory :=
  if b = unlistedByte a then m.erase a else (m.erase a).insert a b

/-- `n` bytes read at `a`, `a + 1`, ... in ascending order (R58, R60). -/
def Memory.readBytes (m : Memory) : Nat → Nat → List Byte
  | _, 0 => []
  | a, n + 1 => m.read a :: m.readBytes (a + 1) n

/-- The bytes of a list written at `a`, `a + 1`, ... in ascending order (R58, R60). -/
def Memory.writeBytes (m : Memory) : Nat → List Byte → Memory
  | _, [] => m
  | a, b :: bs => (m.write a b).writeBytes (a + 1) bs

/-- The range check of the `n` bytes at `base`, made before any effect (R55 to R57, R61): the addresses are not reduced, and the
fault names the lowest of them above 4095 (R173). -/
def rangeFault (base n : Nat) : Option Fault :=
  if 0 < n ∧ base + n - 1 > 4095 then some (.memoryOutOfRange (max base 4096)) else none

/-! Faults -/

/-- The cause codes of R170. -/
def Fault.code : Fault → BitVec 3
  | .illegalInstruction _ => 1
  | .fetchOutOfRange _ => 2
  | .memoryOutOfRange _ => 3
  | .stackOverflow => 4
  | .stackUnderflow => 5
  | .keyIndexOutOfRange _ => 6

/-- The `info` column of R170, in 16 bits (an address is recorded mod 65536, R173). DEDUCED, log entry 10. -/
def Fault.info : Fault → Word
  | .illegalInstruction w => w
  | .fetchOutOfRange pc => pc
  | .memoryOutOfRange addr => BitVec.ofNat 16 addr
  | .stackOverflow => 16
  | .stackUnderflow => 0
  | .keyIndexOutOfRange k => zext16 k

/-- TAKING A FAULT (R177), on the state the step began in: every assignment of the step is discarded, and `FAULT` records the
cause, `pc0` and the information. There is no return from it (R179): only reset leaves the faulted state (R178, R202). DESIGN
CHOICE, log entry 5: it is a next state. -/
def State.enterFault (s : State) (f : Fault) : State :=
  { s with fault := ⟨true, f.code, s.pc, f.info⟩ }

/-- The end of a step that began in `s` (R91): the state the instruction left, or the fault it raised, taken on `s`. -/
def complete (s : State) : Except Fault State → Outcome State Fault Refusal
  | .ok t => .next t
  | .error f => .next (s.enterFault f)

/-- A raised fault, taken (R177). -/
def raise (f : Fault) (s : State) : Outcome State Fault Refusal := complete s (.error f)

/-- `check` first: if it names a fault that is the step's fault, otherwise `t` is its result (R61, R91). -/
def guarded (check : Option Fault) (t : State) : Except Fault State :=
  match check with
  | some f => .error f
  | none => .ok t

/-! Registers -/

/-- `V[x]` (R14, R85). -/
def State.reg (s : State) (x : Reg) : Byte := s.v[x.toNat]'x.isLt

/-- `V[x] <- b` (R14). -/
def State.setReg (s : State) (x : Reg) (b : Byte) : State := { s with v := s.v.set x.toNat b x.isLt }

/-- The flag register VF (R22). -/
def vf : Reg := 15

/-- `V[0]`, ..., `V[n-1]` in order, for `n` at most 16 (R23, R144). -/
def State.firstRegs (s : State) (n : Nat) : List Byte := s.v.toList.take n

/-- `V[k]`, `V[k+1]`, ... replaced by the bytes of a list (R23, R145). -/
def State.setRegsFrom (s : State) : Nat → List Byte → State
  | _, [] => s
  | k, b :: bs => State.setRegsFrom (s.setReg (BitVec.ofNat 4 k) b) (k + 1) bs

/-- `I <- w` (R28). -/
def State.setIndex (s : State) (w : Word) : State := { s with i := w }

/-- `MEM` replaced. -/
def State.setMem (s : State) (m : Memory) : State := { s with mem := m }

/-- `DISP` replaced. -/
def State.setDisp (s : State) (d : Display) : State := { s with disp := d }

/-- `DT <- b` (R36). -/
def State.setDt (s : State) (b : Byte) : State := { s with dt := b }

/-- `ST <- b` (R37). -/
def State.setSt (s : State) (b : Byte) : State := { s with st := b }

/-- `r <- draw rand`: the byte of this draw, and the state in which the next draw is another (R14, R189). Log entry 2. -/
def State.drawRand (s : State) : Byte × State := (Config.rand s.draws, { s with draws := s.draws + 1 })

/-! The program counter -/

/-- `PC <- target` (R14). -/
def State.jump (s : State) (target : Word) : State := { s with pc := target }

/-- The advance of every step before it executes, `PC <- pc0 + 2` (R24, R91), in 16 bits (R26;
DEDUCED, log entry 6). -/
def State.advance (s : State) : State := s.jump (s.pc + 2)

/-- A skip (41_skips.md R114): `PC <- PC + 2` on top of the advance, when the condition holds. -/
def State.skipIf (s : State) (c : Bool) : State := if c then s.jump (s.pc + 2) else s

/-! The call stack -/

/-- `Push(w)` (R30): `STACK[SP] <- w`, then `SP <- SP + 1`; StackOverflow when all sixteen slots are in use. -/
def State.push (s : State) (w : Word) : Except Fault State :=
  if h : s.sp.val < 16 then
    .ok { s with stack := s.stack.set s.sp.val w h, sp := ⟨s.sp.val + 1, Nat.succ_lt_succ h⟩ }
  else .error .stackOverflow

/-- `Pop()` (R31): `SP <- SP − 1`, then `STACK[SP]`, which keeps its value (R32); StackUnderflow when the stack is empty. -/
def State.pop (s : State) : Except Fault (Word × State) :=
  match s.sp with
  | ⟨0, _⟩ => .error .stackUnderflow
  | ⟨k + 1, h⟩ => .ok (s.stack[k]'(Nat.lt_of_succ_lt_succ h), { s with sp := ⟨k, Nat.lt_of_succ_lt h⟩ })

/-! Fetch -/

/-- The fetch of a step (R67, R81): both bytes must lie inside memory. -/
def State.fetch (s : State) : Except Fault Word :=
  if s.pc.toNat > 4094 then .error (.fetchOutOfRange s.pc)
  else .ok (bigEndian (s.mem.read s.pc.toNat) (s.mem.read (s.pc.toNat + 1)))

/-! The display -/

/-- Pixel (x, y) (R34). -/
def Display.pixel (d : Display) (x : Fin 64) (y : Fin 32) : Bool := d[y][x]

/-- Pixel (x, y) inverted (R151). -/
def Display.toggle (d : Display) (x : Fin 64) (y : Fin 32) : Display := d.set y (d[y].set x (!d[y][x]))

/-- All pixels off (R150). -/
def Display.clear : Display := Vector.replicate 32 (Vector.replicate 64 false)

end Sys2Proof.Machine
end

