-- ==== Sys2Proof/Machine/Operands.lean ====
section
/-! DEFINITION. The operand forms (30_encoding.md R84, R85): registers and immediates are taken as they stand; what is computed
from them is an address, a jump target, a key index or a screen coordinate. -/

namespace Sys2Proof.Machine

/-- An absolute target or index value, `zext_16(NNN)` (R84). -/
def absolute (nnn : Addr) : Word := zext16 nnn

/-- The indexed target of JPV0, `zext_16(V[0]) + zext_16(NNN)`, at most 4350 (40_control_flow.md R104). -/
def State.indexedTarget (s : State) (nnn : Addr) : Word := zext16 (s.reg 0) + zext16 nnn

/-- The effective address `EA(k) = I + k` in the unbounded integers (43_index_memory.md R146, 20_memory.md R57). -/
def State.ea (s : State) (k : Nat) : Nat := s.i.toNat + k

/-- The index a register names, after ADDIDX: `(I + zext_16(V[X])) mod 65536` (R141). -/
def State.indexPlus (s : State) (x : Reg) : Word := s.i + zext16 (s.reg x)

/-- The address of the glyph of the digit in `V[X]`, the exact product `5 × V[X]` (R142). -/
def State.glyphAddr (s : State) (x : Reg) : Word := 5 * zext16 (s.reg x)

/-- The three decimal digits of a byte, hundreds first (R143). -/
def bcdDigits (b : Byte) : List Byte :=
  [BitVec.ofNat 8 (b.toNat / 100), BitVec.ofNat 8 (b.toNat / 10 % 10), BitVec.ofNat 8 (b.toNat % 10)]

/-- `KEY[V[X]]`, the key SKP and SKNP test: an index above 15 is a fault, not masked (45_keypad_timers.md R160, R176). -/
def State.keyPressed (s : State) (x : Reg) : Except Fault Bool :=
  if h : (s.reg x).toNat < 16 then .ok (s.key[(s.reg x).toNat]'h) else .error (.keyIndexOutOfRange (s.reg x))

/-- The least pressed key, if any is pressed (R163). -/
def State.lowestKey (s : State) : Option (Fin 16) := (List.finRange 16).find? (fun k => s.key[k])

/-- The column of sprite column `c` of a sprite at column `x0` (44_display.md R152). -/
def column (x0 c : Nat) : Fin 64 := ⟨(x0 + c) % 64, Nat.mod_lt _ (by decide)⟩

/-- The row of sprite row `r` of a sprite at row `y0` (R152). -/
def row (y0 r : Nat) : Fin 32 := ⟨(y0 + r) % 32, Nat.mod_lt _ (by decide)⟩

end Sys2Proof.Machine
end

