-- ==== Sys2Proof/Machine/Flags.lean ====
section
/-! DEFINITION. The flag computations (10_state.md R22): what ADD, SUB, SUBN, SHR, SHL and DRW put into VF, each 0 or 1. -/

namespace Sys2Proof.Machine

/-- The bit a flag writes: 0 or 1 (R22). -/
def flagByte (c : Bool) : Byte := if c then 1 else 0

/-- `VF <- 1` or `VF <- 0` (R22). -/
def State.setFlag (s : State) (c : Bool) : State := s.setReg vf (flagByte c)

/-- The carry of `a + b`: the exact sum exceeds 255 (42_alu.md R126). -/
def carry (a b : Byte) : Bool := decide (a.toNat + b.toNat > 255)

/-- Not-borrow of `a − b`: borrow occurs exactly when `a < b` (R127, R129). -/
def notBorrow (a b : Byte) : Bool := !decide (a.toNat < b.toNat)

/-- The bit SHR shifts out (R128). -/
def lowBit (a : Byte) : Bool := a.getLsbD 0

/-- The bit SHL shifts out (R130). -/
def highBit (a : Byte) : Bool := a.getLsbD 7

/-- What drawing has done so far: the display, and whether it erased a pixel (44_display.md R153). -/
abbrev Drawing := Display × Bool

/-- Bit `c` of a row byte drawn at (x, y) (R151): a set bit toggles the pixel and notes an erased one; a clear bit does
nothing. -/
def drawBit (b : Byte) (x0 : Nat) (y : Fin 32) (acc : Drawing) (c : Nat) : Drawing :=
  if b.getLsbD (7 - c) then
    (acc.1.toggle (column x0 c) y, acc.2 || acc.1.pixel (column x0 c) y)
  else acc

/-- One row byte drawn, from the most to the least significant bit (R151). -/
def drawRow (b : Byte) (x0 : Nat) (y : Fin 32) (acc : Drawing) : Drawing :=
  (List.range 8).foldl (drawBit b x0 y) acc

/-- The rows of a sprite drawn from row `r` on (R151). -/
def drawRows (x0 y0 : Nat) : List Byte → Nat → Drawing → Drawing
  | [], _, acc => acc
  | b :: bs, r, acc => drawRows x0 y0 bs (r + 1) (drawRow b x0 (row y0 r) acc)

end Sys2Proof.Machine
end

