-- ==== Sys2Proof/Machine/Alu.lean ====
section
/-! DEFINITION. LDI, ADDI, MOV, OR, AND, XOR, ADD, SUB, SHR, SUBN, SHL, RND (42_alu.md). Each line of a rule's pseudocode reads
the state the earlier lines left (00_scope.md R11), which is what decides X = F and Y = F (R133; log entry 14). -/

namespace Sys2Proof.Machine

open Host (Outcome)

/-- `LDI Vx, nn` (R120). -/
def execLdi (x : Reg) (nn : Byte) (s : State) : Outcome State Fault Refusal :=
  complete s (.ok (s.advance.setReg x nn))

/-- `ADDI Vx, nn` (R121): wraps modulo 256, no flag. -/
def execAddi (x : Reg) (nn : Byte) (s : State) : Outcome State Fault Refusal :=
  complete s (.ok (s.advance.setReg x (s.reg x + nn)))

/-- `MOV Vx, Vy` (R122). -/
def execMov (x y : Reg) (s : State) : Outcome State Fault Refusal :=
  complete s (.ok (s.advance.setReg x (s.reg y)))

/-- `OR Vx, Vy` (R123). -/
def execOr (x y : Reg) (s : State) : Outcome State Fault Refusal :=
  complete s (.ok (s.advance.setReg x (s.reg x ||| s.reg y)))

/-- `AND Vx, Vy` (R124). -/
def execAnd (x y : Reg) (s : State) : Outcome State Fault Refusal :=
  complete s (.ok (s.advance.setReg x (s.reg x &&& s.reg y)))

/-- `XOR Vx, Vy` (R125). -/
def execXor (x y : Reg) (s : State) : Outcome State Fault Refusal :=
  complete s (.ok (s.advance.setReg x (s.reg x ^^^ s.reg y)))

/-- `ADD Vx, Vy` (R126): the wrapped sum into `V[X]`, then the carry of the same addition into VF. -/
def execAdd (x y : Reg) (s : State) : Outcome State Fault Refusal :=
  complete s (.ok ((s.advance.setReg x (s.reg x + s.reg y)).setFlag (carry (s.reg x) (s.reg y))))

/-- `SUB Vx, Vy` (R127): the wrapped difference into `V[X]`, then not-borrow into VF. -/
def execSub (x y : Reg) (s : State) : Outcome State Fault Refusal :=
  complete s (.ok ((s.advance.setReg x (s.reg x - s.reg y)).setFlag (notBorrow (s.reg x) (s.reg y))))

/-- `SHR Vx, Vy` (R128): VF first, then `V[X]` as that line left it, shifted; Y is ignored (R89). -/
def execShr (x _y : Reg) (s : State) : Outcome State Fault Refusal :=
  let t := s.advance.setFlag (lowBit (s.reg x))
  complete s (.ok (t.setReg x (t.reg x >>> 1)))

/-- `SUBN Vx, Vy` (R129): SUB with the operands exchanged; the result still goes to `V[X]`. -/
def execSubn (x y : Reg) (s : State) : Outcome State Fault Refusal :=
  complete s (.ok ((s.advance.setReg x (s.reg y - s.reg x)).setFlag (notBorrow (s.reg y) (s.reg x))))

/-- `SHL Vx, Vy` (R130): VF first, then `V[X]` as that line left it, shifted; Y is ignored (R89). -/
def execShl (x _y : Reg) (s : State) : Outcome State Fault Refusal :=
  let t := s.advance.setFlag (highBit (s.reg x))
  complete s (.ok (t.setReg x (t.reg x <<< 1)))

/-- `RND Vx, nn` (R131): one byte drawn, masked; the byte is a free value (R189). -/
def execRnd (x : Reg) (nn : Byte) (s : State) : Outcome State Fault Refusal :=
  let (r, t) := s.advance.drawRand
  complete s (.ok (t.setReg x (r &&& nn)))

end Sys2Proof.Machine
end

