-- ==== Sys2Proof/Machine/ControlFlow.lean ====
section
/-! DEFINITION. NOP, RET, JP, CALL, JPV0 (40_control_flow.md). Every meaning takes the state in which PC is `pc0` and makes the
advance itself (R91). -/

namespace Sys2Proof.Machine

open Host (Outcome)

/-- `NOP` (R100). -/
def execNop (s : State) : Outcome State Fault Refusal := complete s (.ok s.advance)

/-- `RET` (R101): `PC <- Pop()`. -/
def execRet (s : State) : Outcome State Fault Refusal :=
  complete s (s.advance.pop.map fun (w, t) => t.jump w)

/-- `JP nnn` (R102). -/
def execJp (nnn : Addr) (s : State) : Outcome State Fault Refusal :=
  complete s (.ok (s.advance.jump (absolute nnn)))

/-- `CALL nnn` (R103): push the advanced PC, then jump. -/
def execCall (nnn : Addr) (s : State) : Outcome State Fault Refusal :=
  complete s ((s.advance.push s.advance.pc).map fun t => t.jump (absolute nnn))

/-- `JPV0 nnn` (R104). -/
def execJpv0 (nnn : Addr) (s : State) : Outcome State Fault Refusal :=
  complete s (.ok (s.advance.jump (s.indexedTarget nnn)))

end Sys2Proof.Machine
end

