-- ==== Sys2Proof/Machine/DisplayOps.lean ====
section
/-! DEFINITION. CLS and DRW (44_display.md). -/

namespace Sys2Proof.Machine

open Host (Outcome)

/-- `CLS` (R150): every pixel off; VF is not written. -/
def execCls (s : State) : Outcome State Fault Refusal := complete s (.ok (s.advance.setDisp Display.clear))

/-- The sprite of a DRW drawn on the display as it is, with nothing erased yet (R151): the coordinates are the registers as the
instruction found them (R154), the rows the `n` bytes at `I`. -/
def State.drawn (s : State) (x y : Reg) (n : Nibble) : Drawing :=
  drawRows (s.reg x).toNat (s.reg y).toNat (s.mem.readBytes (s.ea 0) n.toNat) 0 (s.disp, false)

/-- `DRW Vx, Vy, n` (R151 to R155): the sprite XORed onto the display, then VF = 1 if it erased a pixel, else 0. -/
def execDrw (x y : Reg) (n : Nibble) (s : State) : Outcome State Fault Refusal :=
  complete s (guarded (rangeFault (s.ea 0) n.toNat)
    ((s.advance.setDisp (s.drawn x y n).1).setFlag (s.drawn x y n).2))

end Sys2Proof.Machine
end

