-- ==== Sys2Proof/Machine/IndexMemory.lean ====
section
/-! DEFINITION. LDIDX, ADDIDX, GLYPH, BCD, STM, LDM (43_index_memory.md). The range of a memory instruction is checked before any
of its effects (20_memory.md R61). -/

namespace Sys2Proof.Machine

open Host (Outcome)

/-- `LDIDX nnn` (R140). -/
def execLdidx (nnn : Addr) (s : State) : Outcome State Fault Refusal :=
  complete s (.ok (s.advance.setIndex (absolute nnn)))

/-- `ADDIDX Vx` (R141): wraps modulo 65536, no flag. -/
def execAddidx (x : Reg) (s : State) : Outcome State Fault Refusal :=
  complete s (.ok (s.advance.setIndex (s.indexPlus x)))

/-- `GLYPH Vx` (R142). -/
def execGlyph (x : Reg) (s : State) : Outcome State Fault Refusal :=
  complete s (.ok (s.advance.setIndex (s.glyphAddr x)))

/-- `BCD Vx` (R143): three digits to `I`, `I + 1`, `I + 2`. -/
def execBcd (x : Reg) (s : State) : Outcome State Fault Refusal :=
  complete s (guarded (rangeFault (s.ea 0) 3)
    (s.advance.setMem (s.mem.writeBytes (s.ea 0) (bcdDigits (s.reg x)))))

/-- `STM Vx` (R144): `V[0]` to `V[X]` to `I`, ..., `I + X`. -/
def execStm (x : Reg) (s : State) : Outcome State Fault Refusal :=
  complete s (guarded (rangeFault (s.ea 0) (x.toNat + 1))
    (s.advance.setMem (s.mem.writeBytes (s.ea 0) (s.firstRegs (x.toNat + 1)))))

/-- `LDM Vx` (R145): `I`, ..., `I + X` to `V[0]` to `V[X]`. -/
def execLdm (x : Reg) (s : State) : Outcome State Fault Refusal :=
  complete s (guarded (rangeFault (s.ea 0) (x.toNat + 1))
    (s.advance.setRegsFrom 0 (s.mem.readBytes (s.ea 0) (x.toNat + 1))))

end Sys2Proof.Machine
end

