-- ==== Sys2Proof/Machine/KeypadTimers.lean ====
section
/-! DEFINITION. SKP, SKNP, LDDT, WKEY, STDT, STST (45_keypad_timers.md): the keys and the timers are read as levels at the moment
the step runs (R166). -/

namespace Sys2Proof.Machine

open Host (Outcome)

/-- `SKP Vx` (R160). -/
def execSkp (x : Reg) (s : State) : Outcome State Fault Refusal :=
  complete s ((s.keyPressed x).map fun k => s.advance.skipIf k)

/-- `SKNP Vx` (R161). -/
def execSknp (x : Reg) (s : State) : Outcome State Fault Refusal :=
  complete s ((s.keyPressed x).map fun k => s.advance.skipIf (!k))

/-- `LDDT Vx` (R162). -/
def execLddt (x : Reg) (s : State) : Outcome State Fault Refusal :=
  complete s (.ok (s.advance.setReg x s.dt))

/-- `WKEY Vx` (R163): the least pressed key into `V[X]`; with none pressed PC goes back by 2, to `pc0`. -/
def execWkey (x : Reg) (s : State) : Outcome State Fault Refusal :=
  match s.lowestKey with
  | some k => complete s (.ok (s.advance.setReg x (BitVec.ofNat 8 k.val)))
  | none => complete s (.ok (s.advance.jump (s.advance.pc - 2)))

/-- `STDT Vx` (R164). -/
def execStdt (x : Reg) (s : State) : Outcome State Fault Refusal :=
  complete s (.ok (s.advance.setDt (s.reg x)))

/-- `STST Vx` (R165). -/
def execStst (x : Reg) (s : State) : Outcome State Fault Refusal :=
  complete s (.ok (s.advance.setSt (s.reg x)))

end Sys2Proof.Machine
end

