-- ==== Sys2Proof/Machine/Skips.lean ====
section
/-! DEFINITION. SEI, SNEI, SER, SNER (41_skips.md); the skip itself is `State.skipIf` (R114). -/

namespace Sys2Proof.Machine

open Host (Outcome)

/-- `SEI Vx, nn` (R110). -/
def execSei (x : Reg) (nn : Byte) (s : State) : Outcome State Fault Refusal :=
  complete s (.ok (s.advance.skipIf (s.reg x == nn)))

/-- `SNEI Vx, nn` (R111). -/
def execSnei (x : Reg) (nn : Byte) (s : State) : Outcome State Fault Refusal :=
  complete s (.ok (s.advance.skipIf (s.reg x != nn)))

/-- `SER Vx, Vy` (R112). -/
def execSer (x y : Reg) (s : State) : Outcome State Fault Refusal :=
  complete s (.ok (s.advance.skipIf (s.reg x == s.reg y)))

/-- `SNER Vx, Vy` (R113). -/
def execSner (x y : Reg) (s : State) : Outcome State Fault Refusal :=
  complete s (.ok (s.advance.skipIf (s.reg x != s.reg y)))

end Sys2Proof.Machine
end

