-- ==== Sys2Proof/Machine/Step.lean ====
section
/-! DEFINITION. One `step` of the CPU (30_encoding.md R91), and the placing of one instruction where the next step fetches. -/

namespace Sys2Proof.Machine

open Host (Outcome)

/-- The CPU's operation (R91), checks in the order of R180: a faulted machine executes nothing (R178); the fetch; the decoding;
the instruction. A fault is taken as a next state whose latch says so (R177, log entry 5). -/
def step (s : State) : Outcome State Fault Refusal :=
  if s.fault.valid then .next s
  else
    match s.fetch with
    | .error f => raise f s
    | .ok w =>
      match decodeWord w with
      | none => raise (.illegalInstruction w) s
      | some i => exec i s

/-- `s` with the instruction whose low `nbits` bits are `w` stored at PC and PC + 1, high byte first: it stands for a `load`
by the host (log entry 9). -/
def State.withFetchWord (s : State) (nbits w : Nat) : State :=
  s.setMem (s.mem.writeBytes s.pc.toNat (wordBytes (BitVec.ofNat 16 (w % 2 ^ nbits))))

end Sys2Proof.Machine
end

