-- ==== Sys2Proof/Machine/HostOps.lean ====
section
/-! DEFINITION. The operations of the other two agents (00_scope.md R5, R6): the timer unit's `tickTimers`, and the host's
`construct`, `reset`, `load`, `setKey` and `getDisplay`, with what each returns. On a faulted machine `tickTimers`, `load` and
`setKey` change nothing (60_exceptions.md R178). -/

namespace Sys2Proof.Machine

/-! The timer unit -/

/-- A counter one lower, with the floor 0 (R36, R184). -/
def countDown (b : Byte) : Byte := if b = 0 then 0 else b - 1

/-- `tickTimers` (R184). -/
def State.tickTimers (s : State) : State :=
  if s.fault.valid then s else (s.setDt (countDown s.dt)).setSt (countDown s.st)

/-- The event a tick of `s` emits: ST goes from 1 to 0 (R184, R186). -/
def State.soundExpire (s : State) : Bool := !s.fault.valid && s.st == 1

/-- The level output `ST ≠ 0` (R186). -/
def State.soundActive (s : State) : Bool := s.st != 0

/-! The host -/

/-- `construct` (R200): a new machine. Every machine made here begins at `draws = 0`, so two of them draw the same bytes; the spec
puts no law on that (R8, R189, decision D17). DESIGN CHOICE, unsafe, log entry 15. -/
def State.construct : State := State.reset

/-- `reset` (R201, R202), in every state: every element of R20 as a new machine has it. What is left as it was is no element of
R20: how many bytes the free input `rand` has supplied (log entry 3). -/
def State.hostReset (s : State) : State := { State.construct with draws := s.draws }

/-- What `load` returns (R6, R204). -/
inductive LoadStatus where
  | ok
  | rejected
  deriving DecidableEq, Repr

/-- Whether a `load` is accepted (R203, R204): the machine is not faulted and the program fits. -/
def State.acceptsLoad (s : State) (bytes : List Byte) : Bool :=
  !s.fault.valid && decide (bytes.length ≤ Config.maxProgLen)

/-- `load` (R203 to R205): the bytes from address 512 on, and nothing else; a rejected one changes nothing (R183, R204). -/
def State.load (s : State) (bytes : List Byte) : State × LoadStatus :=
  if s.acceptsLoad bytes then (s.setMem (s.mem.writeBytes Config.progBase bytes), .ok) else (s, .rejected)

/-- `setKey` (R187): an index above 15 is refused, with no change of state. -/
def State.setKey (s : State) (k : Nat) (pressed : Bool) : State :=
  if s.fault.valid then s
  else if h : k < 16 then { s with key := s.key.set k pressed h } else s

/-- `getDisplay` (R188, 10_state.md R34): element `x + 64*y` is `DISP[x, y]`; also on a faulted machine (R178). -/
def State.getDisplay (s : State) : List Bool := s.disp.toList.flatMap Vector.toList

/-! What `step` returns -/

/-- The return value of `step` (R6, decision D29). -/
inductive StepStatus where
  | ok
  /-- with the code of R170 -/
  | fault (code : BitVec 3)
  deriving DecidableEq, Repr

/-- What `step` returns beside the state `t` it leaves: `fault` with the latched cause exactly when the latch is set, which is when
the step raised a fault or found the machine faulted (R91, R177, R178). -/
def State.stepStatus (t : State) : StepStatus := if t.fault.valid then .fault t.fault.cause else .ok

end Sys2Proof.Machine
end

