-- ==== Sys2Proof/Machine/Schedule.lean ====
section
/-! DEFINITION. Executions (00_scope.md R7, 70_reset_and_hazards.md R215): any finite or infinite sequence of the seven operations of
R6, each applied to the state the one before left. The sequence is the schedule, an argument and not state (R4 (c), decision D22;
DEDUCED, log entry 13). -/

namespace Sys2Proof.Machine

open Host (Outcome)

/-- The operation set, exactly the seven of R6. `construct` here replaces the machine by a new one (R178; DESIGN CHOICE, log
entry 11). -/
inductive Operation where
  | construct
  | reset
  | load (bytes : List Byte)
  | step
  | tickTimers
  | getDisplay
  | setKey (index : Nat) (pressed : Bool)
  deriving DecidableEq, Repr

/-- What the host gets back (60_exceptions.md R193). -/
inductive Response where
  | nothing
  | loaded (r : LoadStatus)
  | stepped (r : StepStatus)
  /-- whether `sound_expire` was emitted (R186) -/
  | ticked (soundExpire : Bool)
  | display (view : List Bool)
  deriving DecidableEq, Repr

/-- The state one step leaves. A stop of the model would leave `s`, and there is none
(`Obligations.EveryStepAnswersANextState`). -/
def State.afterStep (s : State) : State :=
  match step s with
  | .next t => t
  | .fault _ => s
  | .refused _ => s

/-- One operation: the state it leaves and what it returns (R6). -/
def Operation.apply (s : State) : Operation → State × Response
  | .construct => (s.hostReset, .nothing)
  | .reset => (s.hostReset, .nothing)
  | .load bytes => ((s.load bytes).1, .loaded (s.load bytes).2)
  | .step => (s.afterStep, .stepped s.afterStep.stepStatus)
  | .tickTimers => (s.tickTimers, .ticked s.soundExpire)
  | .getDisplay => (s, .display s.getDisplay)
  | .setKey k b => (s.setKey k b, .nothing)

/-- The state a finite execution reaches (R7, R215). -/
def runOps (s : State) (ops : List Operation) : State :=
  ops.foldl (fun t op => (op.apply t).1) s

/-- An infinite schedule (R215): operation `n` is the one applied after `n` others. -/
abbrev Schedule := Nat → Operation

/-- The infinite execution of a schedule from `s` (R215): the state after its first `n` operations. -/
def stateAt (s : State) (sched : Schedule) : Nat → State
  | 0 => s
  | n + 1 => ((sched n).apply (stateAt s sched n)).1

/-- What the host gets back from operation `n` of an infinite execution (60_exceptions.md R193). -/
def responseAt (s : State) (sched : Schedule) (n : Nat) : Response := ((sched n).apply (stateAt s sched n)).2

/-- The first `n` operations of an infinite schedule, a finite one. -/
def Schedule.take (sched : Schedule) (n : Nat) : List Operation := (List.range n).map sched

end Sys2Proof.Machine
end

