-- ==== Sys2Proof/Safety.lean ====
section
/-! DEFINITION. The words claims are made in: a running machine and a safe execution, the invariant of reachable states, what an
instruction leaves alone, and the end of a run. -/

namespace Sys2Proof.Machine

/-- The machine is running, not faulted (60_exceptions.md R182). -/
abbrev State.running (s : State) : Prop := s.fault.valid = false

/-- A safe execution: no operation of it leaves the machine faulted. The spec makes this the program's and the host's duty
(70_reset_and_hazards.md R216), and a faulted state is never the end of a run (R178). -/
def safeRun (s : State) (ops : List Operation) : Prop :=
  ∀ k, k ≤ ops.length → (runOps s (ops.take k)).running

/-- A safe infinite execution: no state of it is faulted (R216). -/
def safeForever (s : State) (sched : Schedule) : Prop := ∀ n, (stateAt s sched n).running

/-- A fairness premise on a schedule: from every point on, some later operation is `op`. A claim that a wait ends states one
(R211, decision D22); none is built into an execution. -/
def Schedule.Recurs (sched : Schedule) (op : Operation) : Prop := ∀ n, ∃ m, n ≤ m ∧ sched m = op

/-- The end-of-run condition is a parameter of a claim (R4 (d), R214): a predicate on states. The spec offers this one: PC is at a
`JP` to itself (40_control_flow.md R105). Log entry 8. -/
def State.atSelfJump (s : State) : Bool :=
  match s.fetch with
  | .error _ => false
  | .ok w =>
    match decodeWord w with
    | some (.jp nnn) => absolute nnn == s.pc
    | _ => false

/-- An execution in which the machine keeps running and nothing but ticks changes DT: no `reset`, no new machine, no step that
writes DT (60_exceptions.md R184: "however many steps are interleaved"). -/
def delayUndisturbed : State → List Operation → Prop
  | _, [] => True
  | s, op :: ops =>
    s.running ∧ op ≠ .reset ∧ op ≠ .construct ∧ (op = .step → s.afterStep.dt = s.dt) ∧
      delayUndisturbed (op.apply s).1 ops

/-! The invariant of every reachable state -/

/-- The fault latch is as a running machine has it, or records a fault at PC (10_state.md R38, 60_exceptions.md R170, R177). -/
def State.latchOk (s : State) : Prop :=
  (s.fault.valid = false → s.fault = ⟨false, 0, 0, 0⟩) ∧
  (s.fault.valid = true → 1 ≤ s.fault.cause.toNat ∧ s.fault.cause.toNat ≤ 6 ∧ s.fault.pc = s.pc)

/-- The bounds of 10_state.md R26 (PC at most 4350, a slot at most 4096), the canonical form of memory, and a latch as R38 has
it. `0 ≤ SP ≤ 16` (R29) holds by the type of the field. -/
structure State.Inv (s : State) : Prop where
  memWf : s.mem.wf
  pcBound : s.pc.toNat ≤ 4350
  slotBound : ∀ k : Fin 16, (s.stack[k]).toNat ≤ 4096
  latch : s.latchOk

/-! What an operation leaves alone -/

/-- Every register outside `xs` is as it was. -/
def KeepsRegs (s t : State) (xs : List Reg) : Prop := ∀ r, r ∉ xs → t.reg r = s.reg r

/-- Every byte of `MEM` is as it was. -/
def KeepsMem (s t : State) : Prop := ∀ a, t.mem.read a = s.mem.read a

/-- Every byte of `MEM` outside the `n` bytes at `base` is as it was. -/
def KeepsMemOutside (s t : State) (base n : Nat) : Prop :=
  ∀ a, (a < base ∨ base + n ≤ a) → t.mem.read a = s.mem.read a

/-- `SP` and every slot of the call stack are as they were. -/
def KeepsStack (s t : State) : Prop := t.sp = s.sp ∧ t.stack = s.stack

/-- The keypad latch, the two timers and the fault latch are as they were. -/
def KeepsDevices (s t : State) : Prop := t.key = s.key ∧ t.dt = s.dt ∧ t.st = s.st ∧ t.fault = s.fault

/-- Everything but PC and the registers in `xs` is as it was (the count of drawn bytes is no element of R20). -/
def OnlyRegs (s t : State) (xs : List Reg) : Prop :=
  KeepsRegs s t xs ∧ t.i = s.i ∧ KeepsMem s t ∧ KeepsStack s t ∧ t.disp = s.disp ∧ KeepsDevices s t

/-- Everything but PC and `I` is as it was. -/
def OnlyIndex (s t : State) : Prop :=
  KeepsRegs s t [] ∧ KeepsMem s t ∧ KeepsStack s t ∧ t.disp = s.disp ∧ KeepsDevices s t

/-- Everything but PC and the call stack is as it was. -/
def OnlyStack (s t : State) : Prop :=
  KeepsRegs s t [] ∧ t.i = s.i ∧ KeepsMem s t ∧ t.disp = s.disp ∧ KeepsDevices s t

/-- Everything but PC and the `n` bytes at `base` is as it was. -/
def OnlyMem (s t : State) (base n : Nat) : Prop :=
  KeepsRegs s t [] ∧ t.i = s.i ∧ KeepsMemOutside s t base n ∧ KeepsStack s t ∧ t.disp = s.disp ∧ KeepsDevices s t

/-- Everything but PC, the display and the registers in `xs` is as it was. -/
def OnlyDisp (s t : State) (xs : List Reg) : Prop :=
  KeepsRegs s t xs ∧ t.i = s.i ∧ KeepsMem s t ∧ KeepsStack s t ∧ KeepsDevices s t

/-- Everything but PC and the two timers is as it was. -/
def OnlyTimers (s t : State) : Prop :=
  KeepsRegs s t [] ∧ t.i = s.i ∧ KeepsMem s t ∧ KeepsStack s t ∧ t.disp = s.disp ∧ t.key = s.key ∧ t.fault = s.fault

/-- A faulting step of code `code` and information `info` (R177): `t` is `s` with the latch set and nothing else changed. -/
def FaultTaken (s t : State) (code : BitVec 3) (info : Word) : Prop :=
  t = { s with fault := ⟨true, code, s.pc, info⟩ }

/-- The pixels a DRW of the state covers (44_display.md R151, R152): pixel (px, py) is covered when some row `r` below N and some
column `c` below 8 have a set bit in the sprite and land on it, with wrapping. -/
def SpriteCovers (s : State) (x y : Reg) (n : Nibble) (px : Fin 64) (py : Fin 32) : Prop :=
  ∃ r c : Nat, r < n.toNat ∧ c < 8 ∧ (s.mem.read (s.ea r)).getLsbD (7 - c) = true ∧
    px.val = ((s.reg x).toNat + c) % 64 ∧ py.val = ((s.reg y).toNat + r) % 32

/-- The registers an instruction may write (10_state.md R21, R22): its destination, and VF for the six that write a flag. -/
def destRegs : Instr → List Reg
  | .nop | .cls | .ret | .jp _ | .call _ | .jpv0 _ | .ldidx _ => []
  | .sei _ _ | .snei _ _ | .ser _ _ | .sner _ _ | .skp _ | .sknp _ => []
  | .stdt _ | .stst _ | .addidx _ | .glyph _ | .bcd _ | .stm _ => []
  | .ldi x _ | .addi x _ | .rnd x _ | .lddt x | .wkey x => [x]
  | .mov x _ | .or x _ | .and x _ | .xor x _ => [x]
  | .add x _ | .sub x _ | .shr x _ | .subn x _ | .shl x _ => [x, vf]
  | .drw _ _ _ => [vf]
  | .ldm x => (List.range (x.toNat + 1)).map (BitVec.ofNat 4)

end Sys2Proof.Machine
end

