-- ==== Sys2Proof/Certificates/Slice0/Obligations.lean ====
section
/-! DEFINITION. The statements for the provers, each from the numbered rules of spec/. Statements about `exec` are about the state
in which PC is `pc0`, the address of the instruction; the fault latch plays no part in them, since only `step` reads it. -/

open Sys2Proof Sys2Proof.Machine

/-! Encoding (30_encoding.md) -/

/-- R93: every instruction is one word and disassembles to itself, whatever bytes follow it. -/
def Obligations.EncodeThenDecodeGivesInstruction : Prop :=
  ∀ (i : Instr) (rest : List Byte), decodeBytes (encodeBytes i ++ rest) = .ok (i, rest)

/-- R93: "every legal word disassembles to exactly one line", and assembling it gives the word back: no bit is lost. -/
def Obligations.DecodeThenEncodeGivesWord : Prop :=
  ∀ (w : Word) (i : Instr), decodeWord w = some i → encode i = w

/-- R86: "A word w is instruction M exactly when w & mask(M) = match(M) for the row M". -/
def Obligations.DecoderFollowsOpcodeTable : Prop :=
  ∀ (w : Word), ∀ r ∈ opcodeTable, w &&& r.mask = r.bits ↔ ∃ i, decodeWord w = some i ∧ i.row = r

/-- The table of R88: the words the decoder refuses, by their fields. -/
def Obligations.IllegalWordsAreExactlyTheListed : Prop :=
  ∀ w : Word, decodeWord w = none ↔
    (fieldD1 w = 0x0 ∧ w ≠ 0x0000 ∧ w ≠ 0x00E0 ∧ w ≠ 0x00EE) ∨
    (fieldD1 w = 0x5 ∧ fieldN w ≠ 0x0) ∨
    (fieldD1 w = 0x8 ∧ fieldN w ∈ ([0x8, 0x9, 0xA, 0xB, 0xC, 0xD, 0xF] : List Nibble)) ∨
    (fieldD1 w = 0x9 ∧ fieldN w ≠ 0x0) ∨
    (fieldD1 w = 0xE ∧ fieldNN w ∉ ([0x9E, 0xA1] : List Byte)) ∨
    (fieldD1 w = 0xF ∧ fieldNN w ∉ ([0x07, 0x0A, 0x15, 0x18, 0x1E, 0x29, 0x33, 0x55, 0x65] : List Byte))

/-- Words of the spec's examples, one of each family, decode to what they stand for. -/
def Obligations.PrintedWordsDecode : Prop :=
  decodeWord 0x220A = some (.call 0x20A) ∧ decodeWord 0x332A = some (.sei 3 0x2A) ∧
  decodeWord 0x8014 = some (.add 0 1) ∧ decodeWord 0xA2F0 = some (.ldidx 0x2F0) ∧
  decodeWord 0xD125 = some (.drw 1 2 5) ∧ decodeWord 0xF30A = some (.wkey 3)

/-- R89: the Y field of SHR and SHL takes any value and has no effect. -/
def Obligations.ShiftsIgnoreTheYField : Prop :=
  ∀ (x y y' : Reg) (s : State),
    decodeWord (formatXY 0x8 x y 0x6) = some (.shr x y) ∧ decodeWord (formatXY 0x8 x y 0xE) = some (.shl x y) ∧
    exec (.shr x y) s = exec (.shr x y') s ∧ exec (.shl x y) s = exec (.shl x y') s

/-! The step, faults and the faulted state (30_encoding.md R91, 60_exceptions.md) -/

/-- R91: a running machine whose two bytes at PC decode runs exactly that instruction, on the state as it is; nothing stands
around `exec`. The word is big-endian (R81). -/
def Obligations.StepRunsTheDecodedInstruction : Prop :=
  ∀ (s : State) (i : Instr), s.running → s.pc.toNat ≤ 4094 →
    decodeWord (s.mem.read s.pc.toNat ++ s.mem.read (s.pc.toNat + 1)) = some i →
    step s = exec i s

/-- R171, R88: a word that matches no row is a fault with the word recorded, never a no-op. That the fault
is a next state, with its status read from the latch, is the model's choice (log entry 5). -/
def Obligations.IllegalWordFaults : Prop :=
  ∀ (s : State) (w : Word), s.running → s.pc.toNat ≤ 4094 →
    w = s.mem.read s.pc.toNat ++ s.mem.read (s.pc.toNat + 1) → wordLegal w = false →
    ∃ t, step s = .next t ∧ FaultTaken s t 1 w ∧ t.stepStatus = .fault 1

/-- R67, R172: a step that begins with PC above 4094 faults, 4095 included, and does not wrap. The fault as a next
state, with its status read from the latch, is the model's choice (log entry 5). -/
def Obligations.FetchBeyondMemoryFaults : Prop :=
  ∀ s : State, s.running → 4094 < s.pc.toNat →
    ∃ t, step s = .next t ∧ FaultTaken s t 2 s.pc ∧ t.stepStatus = .fault 2

/-- R178: the faulted state is absorbing. The step's status is read from the latch (log entry 5). -/
def Obligations.FaultedStateIsAbsorbing : Prop :=
  ∀ s : State, s.fault.valid = true →
    step s = .next s ∧
    (∀ op : Operation, op ≠ .reset → op ≠ .construct → (op.apply s).1 = s) ∧
    (Operation.step.apply s).2 = .stepped (.fault s.fault.cause) ∧
    (∀ bytes, ((Operation.load bytes).apply s).2 = .loaded .rejected) ∧
    (Operation.getDisplay.apply s).2 = .display s.getDisplay ∧
    (Operation.tickTimers.apply s).2 = .ticked false ∧
    (Operation.reset.apply s).1.running ∧ (Operation.construct.apply s).1.running

/-- R177: a step that faults changes nothing but the latch, whose PC is the address of the faulting instruction. The
fault as a next state is the model's choice (log entry 5). -/
def Obligations.FaultsArePrecise : Prop :=
  ∀ s t : State, s.running → step s = .next t → ¬ t.running →
    ∃ (code : BitVec 3) (info : Word), FaultTaken s t code info ∧ 1 ≤ code.toNat ∧ code.toNat ≤ 6 ∧
      t.stepStatus = .fault code

/-- R9: every step ends, after one instruction or one fault; the model refuses none. -/
def Obligations.EveryStepAnswersANextState : Prop :=
  ∀ s : State, ∃ t, step s = .next t

/-- R180: which instructions fault, and with which cause; the other 27 never do. -/
def Obligations.OnlyEightInstructionsFault : Prop :=
  ∀ (i : Instr) (s t : State), s.running → exec i s = .next t → ¬ t.running →
    (t.fault.cause = 4 ∧ ∃ nnn, i = .call nnn) ∨
    (t.fault.cause = 5 ∧ i = .ret) ∨
    (t.fault.cause = 3 ∧ ((∃ x y n, i = .drw x y n) ∨ ∃ x, i = .bcd x ∨ i = .stm x ∨ i = .ldm x)) ∨
    (t.fault.cause = 6 ∧ ∃ x, i = .skp x ∨ i = .sknp x)

/-- R26, R38 and the canonical form of memory: one step keeps the bounds of PC and of every slot, the form of memory, and a latch
that is clear or records a fault at PC, in every state that has them. -/
def Obligations.StepKeepsTheInvariant : Prop :=
  ∀ s t : State, s.Inv → step s = .next t → t.Inv

/-- The invariant holds right after reset. -/
def Obligations.InvariantHoldsAtReset : Prop := State.reset.Inv

/-- R215: whatever the schedule of the seven operations, a finite execution ends in a state with the invariant, and every state of
an infinite one, which is the state its first operations reach, has it. -/
def Obligations.EveryExecutionKeepsTheInvariant : Prop :=
  ∀ s : State, s.Inv →
    (∀ ops : List Operation, (runOps s ops).Inv) ∧
    ∀ (sched : Schedule) (n : Nat), (stateAt s sched n).Inv ∧ stateAt s sched n = runOps s (sched.take n)

/-- R37, R42: no instruction reads ST. Two states that differ only in ST step to states that differ at most in ST. -/
def Obligations.SoundTimerIsNotObservable : Prop :=
  ∀ (s : State) (b : Byte), ∃ t u, step s = .next t ∧ step (s.setSt b) = .next u ∧ u = t.setSt u.st

/-- R64: an instruction stored by STM over the bytes after it is what the very next fetch reads. -/
def Obligations.StoredInstructionIsFetchedNext : Prop :=
  ∀ (s : State) (x : Reg), s.running → decodeWord (s.mem.read s.pc.toNat ++ s.mem.read (s.pc.toNat + 1)) = some (.stm x) →
    1 ≤ x.toNat → s.i.toNat = s.pc.toNat + 2 → s.i.toNat + x.toNat ≤ 4095 →
    ∃ t, step s = .next t ∧ t.fetch = .ok (s.reg 0 ++ s.reg 1)

/-! Which instruction may write what (10_state.md) -/

/-- R29, R51: no instruction reads or writes SP or a slot except CALL and RET. -/
def Obligations.OnlyCallAndRetWriteTheStack : Prop :=
  ∀ (i : Instr) (s t : State), exec i s = .next t → (∀ nnn, i ≠ .call nnn) → i ≠ .ret → KeepsStack s t

/-- R60: no other instruction than BCD and STM writes a byte of memory. -/
def Obligations.OnlyBcdAndStmWriteMemory : Prop :=
  ∀ (i : Instr) (s t : State), exec i s = .next t → (∀ x, i ≠ .bcd x ∧ i ≠ .stm x) → KeepsMem s t

/-- R28, R34, R35, R36, R37: `I`, the display and the timers change only by the instructions named, the keypad latch by none. -/
def Obligations.EachDeviceHasOnlyItsWriters : Prop :=
  ∀ (i : Instr) (s t : State), exec i s = .next t →
    t.key = s.key ∧
    ((∀ x, i ≠ .stdt x) → t.dt = s.dt) ∧
    ((∀ x, i ≠ .stst x) → t.st = s.st) ∧
    (i ≠ .cls → (∀ x y n, i ≠ .drw x y n) → t.disp = s.disp) ∧
    ((∀ nnn, i ≠ .ldidx nnn) → (∀ x, i ≠ .addidx x ∧ i ≠ .glyph x) → t.i = s.i)

/-- R22, R85: an instruction writes no register but its destination, and VF only for the six that write a flag; Y is never
written. -/
def Obligations.OnlyDestinationRegistersAreWritten : Prop :=
  ∀ (i : Instr) (s t : State), exec i s = .next t → KeepsRegs s t (destRegs i)

/-! Control flow (40_control_flow.md) -/

/-- R100: NOP does nothing but advance. -/
def Obligations.NopOnlyAdvances : Prop :=
  ∀ s : State, decodeWord 0x0000 = some .nop ∧ ∃ t, exec .nop s = .next t ∧ t.pc = s.pc + 2 ∧ OnlyRegs s t []

/-- R102: JP loads the 12-bit target. -/
def Obligations.JpJumpsToTheTarget : Prop :=
  ∀ (nnn : Addr) (s : State), decodeWord (formatA 0x1 nnn) = some (.jp nnn) ∧
    ∃ t, exec (.jp nnn) s = .next t ∧ t.pc.toNat = nnn.toNat ∧ OnlyRegs s t []

/-- R104: JPV0 loads the exact sum of V0 and the 12-bit address. -/
def Obligations.JpvZeroAddsVZero : Prop :=
  ∀ (nnn : Addr) (s : State), decodeWord (formatA 0xB nnn) = some (.jpv0 nnn) ∧
    ∃ t, exec (.jpv0 nnn) s = .next t ∧ t.pc.toNat = (s.reg 0).toNat + nnn.toNat ∧ OnlyRegs s t []

/-- R103, R30: CALL with a slot free pushes the address after it and jumps. -/
def Obligations.CallPushesAndJumps : Prop :=
  ∀ (nnn : Addr) (s : State) (h : s.sp.val < 16), decodeWord (formatA 0x2 nnn) = some (.call nnn) ∧
    ∃ t, exec (.call nnn) s = .next t ∧ t.pc.toNat = nnn.toNat ∧ t.sp.val = s.sp.val + 1 ∧
      t.stack[s.sp.val] = s.pc + 2 ∧ (∀ k : Fin 16, k.val ≠ s.sp.val → t.stack[k] = s.stack[k]) ∧ OnlyStack s t

/-- R101, R31, R32: RET on a stack of k + 1 addresses takes slot k, and no slot changes. -/
def Obligations.RetPopsIntoPc : Prop :=
  ∀ (s : State) (k : Nat) (hk : k < 16), s.sp.val = k + 1 → decodeWord 0x00EE = some .ret ∧
    ∃ t, exec .ret s = .next t ∧ t.pc = s.stack[k] ∧ t.sp.val = k ∧ t.stack = s.stack ∧ OnlyStack s t

/-- R174, R175: CALL on a full stack and RET on an empty one fault and change nothing else; a fault is a next state
(log entry 5). -/
def Obligations.StackLimitsFault : Prop :=
  ∀ s : State,
    (∀ nnn, s.sp.val = 16 → ∃ t, exec (.call nnn) s = .next t ∧ FaultTaken s t 4 16) ∧
    (s.sp.val = 0 → ∃ t, exec .ret s = .next t ∧ FaultTaken s t 5 0)

/-- R31, R103: a RET right after a CALL returns to the instruction after the CALL, with the depth as before. -/
def Obligations.CallThenRetReturns : Prop :=
  ∀ (nnn : Addr) (s : State), s.sp.val < 16 →
    ∃ t u, exec (.call nnn) s = .next t ∧ exec .ret t = .next u ∧ u.pc = s.pc + 2 ∧ u.sp = s.sp

/-- R105: a JP to its own address is a fixed point of the step, and the offered end of a run. -/
def Obligations.SelfJumpIsAFixedPoint : Prop :=
  ∀ (s : State) (nnn : Addr), s.running → s.pc.toNat ≤ 4094 →
    s.mem.read s.pc.toNat ++ s.mem.read (s.pc.toNat + 1) = formatA 0x1 nnn → nnn.toNat = s.pc.toNat →
    step s = .next s ∧ s.atSelfJump = true

/-! Skips (41_skips.md) -/

/-- R110 to R114: the four register skips advance by 4 when their condition holds and by 2 when it does not; they write nothing
else. -/
def Obligations.RegisterSkipsAdvanceByFourOrTwo : Prop :=
  ∀ (x y : Reg) (nn : Byte) (s : State),
    (decodeWord (formatXI 0x3 x nn) = some (.sei x nn) ∧ ∃ t, exec (.sei x nn) s = .next t ∧ OnlyRegs s t [] ∧
      t.pc = if s.reg x = nn then s.pc + 4 else s.pc + 2) ∧
    (decodeWord (formatXI 0x4 x nn) = some (.snei x nn) ∧ ∃ t, exec (.snei x nn) s = .next t ∧ OnlyRegs s t [] ∧
      t.pc = if s.reg x = nn then s.pc + 2 else s.pc + 4) ∧
    (decodeWord (formatXY 0x5 x y 0x0) = some (.ser x y) ∧ ∃ t, exec (.ser x y) s = .next t ∧ OnlyRegs s t [] ∧
      t.pc = if s.reg x = s.reg y then s.pc + 4 else s.pc + 2) ∧
    (decodeWord (formatXY 0x9 x y 0x0) = some (.sner x y) ∧ ∃ t, exec (.sner x y) s = .next t ∧ OnlyRegs s t [] ∧
      t.pc = if s.reg x = s.reg y then s.pc + 2 else s.pc + 4)

/-! Arithmetic (42_alu.md) -/

/-- R120, R122: LDI and MOV load the immediate byte or the other register. -/
def Obligations.LoadsSetTheDestination : Prop :=
  ∀ (x y : Reg) (nn : Byte) (s : State),
    (decodeWord (formatXI 0x6 x nn) = some (.ldi x nn) ∧ ∃ t, exec (.ldi x nn) s = .next t ∧ t.pc = s.pc + 2 ∧
      t.reg x = nn ∧ OnlyRegs s t [x]) ∧
    (decodeWord (formatXY 0x8 x y 0x0) = some (.mov x y) ∧ ∃ t, exec (.mov x y) s = .next t ∧ t.pc = s.pc + 2 ∧
      t.reg x = s.reg y ∧ OnlyRegs s t [x])

/-- R121: ADDI wraps modulo 256 and never sets VF, unless VF is the destination, and then VF is the wrapped sum. -/
def Obligations.AddiWrapsWithoutFlag : Prop :=
  ∀ (x : Reg) (nn : Byte) (s : State), decodeWord (formatXI 0x7 x nn) = some (.addi x nn) ∧
    ∃ t, exec (.addi x nn) s = .next t ∧ t.pc = s.pc + 2 ∧
      (t.reg x).toNat = ((s.reg x).toNat + nn.toNat) % 256 ∧ OnlyRegs s t [x]

/-- R123 to R125: the three logic instructions work bit by bit and leave VF alone. -/
def Obligations.LogicIsBitwise : Prop :=
  ∀ (x y : Reg) (s : State),
    (decodeWord (formatXY 0x8 x y 0x1) = some (.or x y) ∧ ∃ t, exec (.or x y) s = .next t ∧ t.pc = s.pc + 2 ∧
      (∀ k, (t.reg x).getLsbD k = ((s.reg x).getLsbD k || (s.reg y).getLsbD k)) ∧ OnlyRegs s t [x]) ∧
    (decodeWord (formatXY 0x8 x y 0x2) = some (.and x y) ∧ ∃ t, exec (.and x y) s = .next t ∧ t.pc = s.pc + 2 ∧
      (∀ k, (t.reg x).getLsbD k = ((s.reg x).getLsbD k && (s.reg y).getLsbD k)) ∧ OnlyRegs s t [x]) ∧
    (decodeWord (formatXY 0x8 x y 0x3) = some (.xor x y) ∧ ∃ t, exec (.xor x y) s = .next t ∧ t.pc = s.pc + 2 ∧
      (∀ k, (t.reg x).getLsbD k = ((s.reg x).getLsbD k != (s.reg y).getLsbD k)) ∧ OnlyRegs s t [x])

/-- R126: ADD leaves the sum modulo 256 in V[X] and the carry in VF; with X = F the carry is left. -/
def Obligations.AddLeavesSumAndCarry : Prop :=
  ∀ (x y : Reg) (s : State), decodeWord (formatXY 0x8 x y 0x4) = some (.add x y) ∧
    ∃ t, exec (.add x y) s = .next t ∧ t.pc = s.pc + 2 ∧
      (x ≠ vf → (t.reg x).toNat = ((s.reg x).toNat + (s.reg y).toNat) % 256) ∧
      (t.reg vf).toNat = (if 255 < (s.reg x).toNat + (s.reg y).toNat then 1 else 0) ∧ OnlyRegs s t [x, vf]

/-- R127: SUB leaves the difference modulo 256 in V[X] and not-borrow in VF; with X = F the flag is left. -/
def Obligations.SubLeavesDifferenceAndNotBorrow : Prop :=
  ∀ (x y : Reg) (s : State), decodeWord (formatXY 0x8 x y 0x5) = some (.sub x y) ∧
    ∃ t, exec (.sub x y) s = .next t ∧ t.pc = s.pc + 2 ∧
      (x ≠ vf → (t.reg x).toNat = ((s.reg x).toNat + 256 - (s.reg y).toNat) % 256) ∧
      (t.reg vf).toNat = (if (s.reg x).toNat < (s.reg y).toNat then 0 else 1) ∧ OnlyRegs s t [x, vf]

/-- R129: SUBN subtracts V[X] from V[Y]; the result still goes to V[X], and with X = F the flag is left. -/
def Obligations.SubnLeavesDifferenceAndNotBorrow : Prop :=
  ∀ (x y : Reg) (s : State), decodeWord (formatXY 0x8 x y 0x7) = some (.subn x y) ∧
    ∃ t, exec (.subn x y) s = .next t ∧ t.pc = s.pc + 2 ∧
      (x ≠ vf → (t.reg x).toNat = ((s.reg y).toNat + 256 - (s.reg x).toNat) % 256) ∧
      (t.reg vf).toNat = (if (s.reg y).toNat < (s.reg x).toNat then 0 else 1) ∧ OnlyRegs s t [x, vf]

/-- R128, R133: SHR halves V[X] and leaves its old bit 0 in VF; with X = F, VF ends as 0 (R133,
log entry 14). -/
def Obligations.ShrHalvesAndLeavesTheLowBit : Prop :=
  ∀ (x y : Reg) (s : State), decodeWord (formatXY 0x8 x y 0x6) = some (.shr x y) ∧
    ∃ t, exec (.shr x y) s = .next t ∧ t.pc = s.pc + 2 ∧
      (x ≠ vf → (t.reg x).toNat = (s.reg x).toNat / 2 ∧ (t.reg vf).toNat = (s.reg x).toNat % 2) ∧
      (x = vf → (t.reg vf).toNat = 0) ∧ OnlyRegs s t [x, vf]

/-- R130, R133: SHL doubles V[X] modulo 256 and leaves its old bit 7 in VF; with X = F, VF ends as 0 or
2 (R133, log entry 14). -/
def Obligations.ShlDoublesAndLeavesTheHighBit : Prop :=
  ∀ (x y : Reg) (s : State), decodeWord (formatXY 0x8 x y 0xE) = some (.shl x y) ∧
    ∃ t, exec (.shl x y) s = .next t ∧ t.pc = s.pc + 2 ∧
      (x ≠ vf → (t.reg x).toNat = (2 * (s.reg x).toNat) % 256 ∧ (t.reg vf).toNat = (s.reg x).toNat / 128) ∧
      (x = vf → (t.reg vf).toNat = if 128 ≤ (s.reg x).toNat then 2 else 0) ∧ OnlyRegs s t [x, vf]

/-- R131: RND leaves the drawn byte under the mask, whatever was drawn; the drawn byte is the model's free value
`Config.rand s.draws`, and the next draw is another (log entry 2). -/
def Obligations.RndMasksTheDrawnByte : Prop :=
  ∀ (x : Reg) (nn : Byte) (s : State), decodeWord (formatXI 0xC x nn) = some (.rnd x nn) ∧
    ∃ t, exec (.rnd x nn) s = .next t ∧ t.pc = s.pc + 2 ∧ t.reg x = Config.rand s.draws &&& nn ∧
      t.reg x &&& ~~~nn = 0 ∧ t.draws = s.draws + 1 ∧ OnlyRegs s t [x]

/-! Index and memory (43_index_memory.md) -/

/-- R140 to R142: LDIDX, ADDIDX (wrapping at 16 bits) and GLYPH (the exact product) write `I` and nothing else. -/
def Obligations.IndexInstructionsWriteI : Prop :=
  ∀ (nnn : Addr) (x : Reg) (s : State),
    (decodeWord (formatA 0xA nnn) = some (.ldidx nnn) ∧ ∃ t, exec (.ldidx nnn) s = .next t ∧ t.pc = s.pc + 2 ∧
      t.i.toNat = nnn.toNat ∧ OnlyIndex s t) ∧
    (decodeWord (formatXI 0xF x 0x1E) = some (.addidx x) ∧ ∃ t, exec (.addidx x) s = .next t ∧ t.pc = s.pc + 2 ∧
      t.i.toNat = (s.i.toNat + (s.reg x).toNat) % 65536 ∧ OnlyIndex s t) ∧
    (decodeWord (formatXI 0xF x 0x29) = some (.glyph x) ∧ ∃ t, exec (.glyph x) s = .next t ∧ t.pc = s.pc + 2 ∧
      t.i.toNat = 5 * (s.reg x).toNat ∧ OnlyIndex s t)

/-- R143: BCD writes the three digits at I, I + 1, I + 2 and nothing else, `I` and VF included. -/
def Obligations.BcdWritesThreeDigits : Prop :=
  ∀ (x : Reg) (s : State), s.i.toNat + 2 ≤ 4095 → decodeWord (formatXI 0xF x 0x33) = some (.bcd x) ∧
    ∃ t, exec (.bcd x) s = .next t ∧ t.pc = s.pc + 2 ∧
      (t.mem.read (s.ea 0)).toNat = (s.reg x).toNat / 100 ∧
      (t.mem.read (s.ea 1)).toNat = ((s.reg x).toNat / 10) % 10 ∧
      (t.mem.read (s.ea 2)).toNat = (s.reg x).toNat % 10 ∧ OnlyMem s t (s.ea 0) 3

/-- R144: STM stores V[0] to V[X] at I to I + X and nothing else. -/
def Obligations.StmStoresTheFirstRegisters : Prop :=
  ∀ (x : Reg) (s : State), s.i.toNat + x.toNat ≤ 4095 → decodeWord (formatXI 0xF x 0x55) = some (.stm x) ∧
    ∃ t, exec (.stm x) s = .next t ∧ t.pc = s.pc + 2 ∧
      (∀ r : Reg, r.toNat ≤ x.toNat → t.mem.read (s.ea r.toNat) = s.reg r) ∧ OnlyMem s t (s.ea 0) (x.toNat + 1)

/-- R145: LDM loads V[0] to V[X] from I to I + X; the registers above X and everything else keep their values. -/
def Obligations.LdmLoadsTheFirstRegisters : Prop :=
  ∀ (x : Reg) (s : State), s.i.toNat + x.toNat ≤ 4095 → decodeWord (formatXI 0xF x 0x65) = some (.ldm x) ∧
    ∃ t, exec (.ldm x) s = .next t ∧ t.pc = s.pc + 2 ∧
      (∀ r : Reg, t.reg r = if r.toNat ≤ x.toNat then s.mem.read (s.ea r.toNat) else s.reg r) ∧
      OnlyRegs s t (destRegs (.ldm x))

/-- R61, R173: BCD, STM, LDM and DRW that would pass address 4095 fault at the lowest address outside, and change nothing
else; a fault is a next state (log entry 5). -/
def Obligations.MemoryRangeFaultsBeforeAnyEffect : Prop :=
  ∀ (x y : Reg) (n : Nibble) (s : State),
    (4095 < s.i.toNat + 2 → ∃ t, exec (.bcd x) s = .next t ∧ FaultTaken s t 3 (BitVec.ofNat 16 (max s.i.toNat 4096))) ∧
    (4095 < s.i.toNat + x.toNat →
      (∃ t, exec (.stm x) s = .next t ∧ FaultTaken s t 3 (BitVec.ofNat 16 (max s.i.toNat 4096))) ∧
      ∃ t, exec (.ldm x) s = .next t ∧ FaultTaken s t 3 (BitVec.ofNat 16 (max s.i.toNat 4096))) ∧
    (0 < n.toNat → 4095 < s.i.toNat + n.toNat - 1 →
      ∃ t, exec (.drw x y n) s = .next t ∧ FaultTaken s t 3 (BitVec.ofNat 16 (max s.i.toNat 4096)))

/-! Display (44_display.md) -/

/-- R150: CLS turns every pixel off and writes nothing else, VF included. -/
def Obligations.ClsClearsEveryPixel : Prop :=
  ∀ s : State, decodeWord 0x00E0 = some .cls ∧
    ∃ t, exec .cls s = .next t ∧ t.pc = s.pc + 2 ∧ (∀ x y, t.disp.pixel x y = false) ∧ OnlyDisp s t []

/-- R151 to R153, R155: DRW inverts exactly the covered pixels, with wrapping, and leaves VF = 1 exactly when one of them was
on; the coordinates are the registers before it, also with X = F or Y = F (R154, log entry 14). -/
def Obligations.DrwXorsTheSprite : Prop :=
  ∀ (x y : Reg) (n : Nibble) (s : State), (n.toNat = 0 ∨ s.i.toNat + n.toNat - 1 ≤ 4095) →
    decodeWord (formatXY 0xD x y n) = some (.drw x y n) ∧
    ∃ t, exec (.drw x y n) s = .next t ∧ t.pc = s.pc + 2 ∧
      (∀ px py, SpriteCovers s x y n px py → t.disp.pixel px py = !s.disp.pixel px py) ∧
      (∀ px py, ¬ SpriteCovers s x y n px py → t.disp.pixel px py = s.disp.pixel px py) ∧
      ((∃ px py, SpriteCovers s x y n px py ∧ s.disp.pixel px py = true) → t.reg vf = 1) ∧
      ((¬ ∃ px py, SpriteCovers s x y n px py ∧ s.disp.pixel px py = true) → t.reg vf = 0) ∧
      OnlyDisp s t [vf]

/-- R154: with N = 0, DRW reads no memory, cannot fault whatever `I` holds, changes no pixel and writes VF = 0 (log
entry 14). -/
def Obligations.DrwOfNoRowsClearsTheFlag : Prop :=
  ∀ (x y : Reg) (s : State), ∃ t, exec (.drw x y 0) s = .next t ∧ t.pc = s.pc + 2 ∧ t.reg vf = 0 ∧ t.disp = s.disp ∧
    OnlyDisp s t [vf]

/-- R155: drawing the same sprite twice restores the display, and the second draw leaves VF = 1 exactly when the first turned a
pixel on. -/
def Obligations.DrawingTwiceRestoresTheDisplay : Prop :=
  ∀ (x y : Reg) (n : Nibble) (s : State), x ≠ vf → y ≠ vf → (n.toNat = 0 ∨ s.i.toNat + n.toNat - 1 ≤ 4095) →
    ∃ t u, exec (.drw x y n) s = .next t ∧ exec (.drw x y n) t = .next u ∧ u.disp = s.disp ∧
      (u.reg vf = 1 ↔ ∃ px py, s.disp.pixel px py = false ∧ t.disp.pixel px py = true)

/-! Keypad and timers (45_keypad_timers.md, 60_exceptions.md) -/

/-- R160, R161: SKP and SKNP skip by the latch of the key V[X] names. -/
def Obligations.KeySkipsTestTheLatch : Prop :=
  ∀ (x : Reg) (s : State) (h : (s.reg x).toNat < 16),
    (decodeWord (formatXI 0xE x 0x9E) = some (.skp x) ∧ ∃ t, exec (.skp x) s = .next t ∧ OnlyRegs s t [] ∧
      t.pc = if s.key[(s.reg x).toNat] = true then s.pc + 4 else s.pc + 2) ∧
    (decodeWord (formatXI 0xE x 0xA1) = some (.sknp x) ∧ ∃ t, exec (.sknp x) s = .next t ∧ OnlyRegs s t [] ∧
      t.pc = if s.key[(s.reg x).toNat] = true then s.pc + 2 else s.pc + 4)

/-- R176: SKP and SKNP with V[X] above 15 fault with that value, and nothing is masked; a fault is a next state (log
entry 5). -/
def Obligations.KeyIndexAboveFifteenFaults : Prop :=
  ∀ (x : Reg) (s : State), 15 < (s.reg x).toNat →
    (∃ t, exec (.skp x) s = .next t ∧ FaultTaken s t 6 ((s.reg x).setWidth 16)) ∧
    ∃ t, exec (.sknp x) s = .next t ∧ FaultTaken s t 6 ((s.reg x).setWidth 16)

/-- R163: WKEY takes the least pressed key and goes on; with no key pressed a step of it changes nothing at all. -/
def Obligations.WkeyTakesTheLeastKeyOrWaits : Prop :=
  ∀ (x : Reg) (s : State), decodeWord (formatXI 0xF x 0x0A) = some (.wkey x) ∧
    (∀ k : Fin 16, s.key[k] = true → (∀ j : Fin 16, j < k → s.key[j] = false) →
      ∃ t, exec (.wkey x) s = .next t ∧ t.pc = s.pc + 2 ∧ (t.reg x).toNat = k.val ∧ OnlyRegs s t [x]) ∧
    ((∀ k : Fin 16, s.key[k] = false) → exec (.wkey x) s = .next s)

/-- R162, R164, R165: LDDT reads DT, STDT and STST write the timers, and nothing else changes. -/
def Obligations.TimerInstructionsMoveTheTimers : Prop :=
  ∀ (x : Reg) (s : State),
    (decodeWord (formatXI 0xF x 0x07) = some (.lddt x) ∧ ∃ t, exec (.lddt x) s = .next t ∧ t.pc = s.pc + 2 ∧
      t.reg x = s.dt ∧ OnlyRegs s t [x]) ∧
    (decodeWord (formatXI 0xF x 0x15) = some (.stdt x) ∧ ∃ t, exec (.stdt x) s = .next t ∧ t.pc = s.pc + 2 ∧
      t.dt = s.reg x ∧ t.st = s.st ∧ OnlyTimers s t) ∧
    (decodeWord (formatXI 0xF x 0x18) = some (.stst x) ∧ ∃ t, exec (.stst x) s = .next t ∧ t.pc = s.pc + 2 ∧
      t.st = s.reg x ∧ t.dt = s.dt ∧ OnlyTimers s t ∧ (t.soundActive = true ↔ s.reg x ≠ 0))

/-- R184, R186: a tick lowers each timer by one with the floor 0, emits `sound_expire` exactly when ST goes from 1 to 0, and
changes nothing else. -/
def Obligations.TickLowersBothTimers : Prop :=
  ∀ s : State, s.running →
    s.tickTimers.dt.toNat = s.dt.toNat - 1 ∧ s.tickTimers.st.toNat = s.st.toNat - 1 ∧
    (s.soundExpire = true ↔ s.st.toNat = 1) ∧ (s.soundActive = true ↔ s.st.toNat ≠ 0) ∧
    s.tickTimers.pc = s.pc ∧ OnlyTimers s s.tickTimers

/-- R184: "a timer set to n reaches 0 after exactly n ticks however many steps are interleaved". R211: along an infinite execution
DT reaches 0 under the fairness premise that ticks recur. -/
def Obligations.DelayTimerCountsTheTicks : Prop :=
  (∀ (s : State) (ops : List Operation), delayUndisturbed s ops →
    (runOps s ops).dt.toNat = s.dt.toNat - ops.count .tickTimers) ∧
  ∀ (s : State) (sched : Schedule), (∀ n, delayUndisturbed s (sched.take n)) → sched.Recurs .tickTimers →
    ∃ n, (stateAt s sched n).dt = 0

/-! The host's operations (10_state.md R41, 60_exceptions.md, 70_reset_and_hazards.md) -/

/-- R41, R200, R201: the state of a constructed and of a reset machine, whatever it held. -/
def Obligations.ResetSetsEveryElement : Prop :=
  ∀ s t : State, (t = State.construct ∨ t = s.hostReset) →
    (∀ r, t.reg r = 0) ∧ t.pc.toNat = 512 ∧ t.i = 0 ∧ t.sp.val = 0 ∧ (∀ k : Fin 16, t.stack[k] = 0) ∧
    (∀ a : Fin 80, t.mem.read a.val = Config.font a) ∧ (∀ a, 80 ≤ a → a ≤ 4095 → t.mem.read a = 0) ∧
    (∀ x y, t.disp.pixel x y = false) ∧ (∀ k : Fin 16, t.key[k] = false) ∧ t.dt = 0 ∧ t.st = 0 ∧
    t.fault = ⟨false, 0, 0, 0⟩

/-- R187: `setKey` writes one latch of a running machine; an index above 15 is refused. -/
def Obligations.SetKeyWritesOneLatch : Prop :=
  ∀ (s : State) (k : Nat) (b : Bool), s.running →
    (∀ j : Fin 16, (s.setKey k b).key[j] = if j.val = k then b else s.key[j]) ∧
    s.setKey k b = { s with key := (s.setKey k b).key } ∧
    (15 < k → s.setKey k b = s)

/-- R203 to R205: an accepted `load` writes its bytes from 512 on and nothing else; one too long, or on a faulted machine, is
rejected and changes nothing. -/
def Obligations.LoadCopiesOrRejects : Prop :=
  ∀ (s : State) (bytes : List Byte),
    (s.running → bytes.length ≤ 3584 →
      (s.load bytes).2 = .ok ∧ (∀ k (h : k < bytes.length), (s.load bytes).1.mem.read (512 + k) = bytes[k]) ∧
      (∀ a, a < 512 ∨ 512 + bytes.length ≤ a → (s.load bytes).1.mem.read a = s.mem.read a) ∧
      (s.load bytes).1 = { s with mem := (s.load bytes).1.mem }) ∧
    (¬ s.running ∨ 3584 < bytes.length → s.load bytes = (s, .rejected))

/-- R188, R34: `getDisplay` changes nothing and returns 2048 booleans, element x + 64*y being pixel (x, y). -/
def Obligations.DisplayViewIsRowMajor : Prop :=
  ∀ s : State, Operation.getDisplay.apply s = (s, .display s.getDisplay) ∧ s.getDisplay.length = 2048 ∧
    ∀ (x : Fin 64) (y : Fin 32), s.getDisplay[x.val + 64 * y.val]? = some (s.disp.pixel x y)

/-- R206: after reset and `load`, the first step runs the first two bytes of the program. -/
def Obligations.FirstStepRunsTheLoadedProgram : Prop :=
  ∀ (s : State) (i : Instr) (rest : List Byte), rest.length ≤ 3582 →
    step (s.hostReset.load (encodeBytes i ++ rest)).1 = exec i (s.hostReset.load (encodeBytes i ++ rest)).1
end

