-- ==== Sys2Proof/Laws/Memory.lean ====
section
/-! SUPPORT. The laws of memory: a read after a write, bytes read and written in a row, and that every memory operation keeps
the canonical form. -/

namespace Sys2Proof.Machine

/-! One byte -/

@[simp] theorem Memory.read_nil (a : Nat) : Memory.read [] a = unlistedByte a := rfl

theorem Memory.read_erase (m : Memory) (a a' : Nat) :
    (m.erase a).read a' = if a' = a then unlistedByte a' else m.read a' := by
  induction m with
  | nil => simp [Memory.erase]
  | cons c m ih =>
    unfold Memory.erase at ih ⊢
    by_cases h : c.1 = a
    · simp only [h, List.filter_cons, ne_eq, not_true_eq_false, decide_false, Bool.false_eq_true, if_false, ih, Memory.read]
      split <;> rename_i h'
      · rfl
      · simp [Ne.symm h']
    · simp only [List.filter_cons, ne_eq, h, not_false_eq_true, decide_true, if_true, Memory.read, ih]
      split <;> rename_i h'
      · simp [← h', h]
      · rfl

theorem Memory.read_insert (m : Memory) (a : Nat) (b : Byte) (a' : Nat) (hm : ∀ c ∈ m, c.1 ≠ a) :
    (m.insert a b).read a' = if a' = a then b else m.read a' := by
  induction m with
  | nil => simp [Memory.insert, Memory.read, eq_comm]
  | cons c m ih =>
    have hc : c.1 ≠ a := hm c (by simp)
    have ih' := ih (fun d hd => hm d (by simp [hd]))
    simp only [Memory.insert]
    split
    · simp only [Memory.read, ih']
      split <;> rename_i h'
      · simp [← h', hc]
      · rfl
    · simp only [Memory.read, eq_comm (a := a)]

theorem Memory.erase_ne (m : Memory) (a : Nat) : ∀ c ∈ m.erase a, c.1 ≠ a := by
  intro c hc
  simpa using (List.mem_filter.mp hc).2

/-- A read after a write: the byte written at its address, and the byte that was there everywhere else (R62). -/
theorem Memory.read_write (m : Memory) (a : Nat) (b : Byte) (a' : Nat) :
    (m.write a b).read a' = if a' = a then b else m.read a' := by
  unfold Memory.write
  split <;> rename_i h
  · rw [Memory.read_erase, h]
    split <;> simp_all
  · rw [Memory.read_insert _ _ _ _ (Memory.erase_ne m a), Memory.read_erase]
    split <;> rfl

@[simp] theorem Memory.read_write_same (m : Memory) (a : Nat) (b : Byte) : (m.write a b).read a = b := by
  simp [Memory.read_write]

theorem Memory.read_write_other (m : Memory) (a : Nat) (b : Byte) (a' : Nat) (h : a' ≠ a) :
    (m.write a b).read a' = m.read a' := by
  simp [Memory.read_write, h]

/-! Bytes in a row -/

@[simp] theorem Memory.readBytes_length (m : Memory) (a n : Nat) : (m.readBytes a n).length = n := by
  induction n generalizing a with
  | zero => rfl
  | succ n ih => simp [Memory.readBytes, ih]

theorem Memory.readBytes_getElem (m : Memory) (a n k : Nat) (h : k < (m.readBytes a n).length) :
    (m.readBytes a n)[k] = m.read (a + k) := by
  induction n generalizing a k with
  | zero => simp [Memory.readBytes] at h
  | succ n ih =>
    cases k with
    | zero => simp [Memory.readBytes]
    | succ k =>
      simp only [Memory.readBytes, List.getElem_cons_succ]
      rw [ih]
      congr 1
      omega

/-- What `writeBytes` leaves at every address: a byte of the list inside its range, the old byte outside. -/
theorem Memory.read_writeBytes (m : Memory) (a : Nat) (bs : List Byte) (a' : Nat) :
    (m.writeBytes a bs).read a' =
      if h : a ≤ a' ∧ a' - a < bs.length then bs[a' - a]'h.2 else m.read a' := by
  induction bs generalizing m a with
  | nil => simp [Memory.writeBytes]
  | cons b bs ih =>
    rw [Memory.writeBytes, ih, Memory.read_write]
    by_cases h1 : a' = a
    · subst h1
      simp
    · by_cases h2 : a + 1 ≤ a' ∧ a' - (a + 1) < bs.length
      · have h3 : a ≤ a' ∧ a' - a < (b :: bs).length := by
          simp only [List.length_cons]; omega
        rw [dif_pos h2, dif_pos h3]
        have : a' - a = (a' - (a + 1)) + 1 := by omega
        simp only [this, List.getElem_cons_succ]
      · have h3 : ¬ (a ≤ a' ∧ a' - a < (b :: bs).length) := by
          simp only [List.length_cons]; omega
        rw [dif_neg h2, dif_neg h3, if_neg h1]

theorem Memory.read_writeBytes_outside (m : Memory) (a : Nat) (bs : List Byte) (a' : Nat)
    (h : a' < a ∨ a + bs.length ≤ a') : (m.writeBytes a bs).read a' = m.read a' := by
  rw [Memory.read_writeBytes, dif_neg]
  omega

theorem Memory.read_writeBytes_inside (m : Memory) (a : Nat) (bs : List Byte) (k : Nat) (h : k < bs.length) :
    (m.writeBytes a bs).read (a + k) = bs[k] := by
  rw [Memory.read_writeBytes, dif_pos ⟨by omega, by omega⟩]
  simp

/-! The canonical form -/

theorem Memory.wf_nil : Memory.wf [] := by simp [Memory.wf]

theorem Memory.wf_erase {m : Memory} (a : Nat) (h : m.wf) : (m.erase a).wf :=
  ⟨h.1.sublist List.filter_sublist, fun c hc => h.2 c (List.mem_filter.mp hc).1⟩

theorem Memory.mem_insert {m : Memory} {a : Nat} {b : Byte} {c : Host.Cell} (h : c ∈ m.insert a b) :
    c = (a, b) ∨ c ∈ m := by
  induction m with
  | nil => simpa [Memory.insert] using h
  | cons d m ih =>
    simp only [Memory.insert] at h
    split at h
    · rcases List.mem_cons.mp h with h | h
      · simp [h]
      · rcases ih h with h | h <;> simp [h]
    · simpa using h

theorem Memory.wf_insert {m : Memory} {a : Nat} {b : Byte} (ha : a < Config.memSize) (hb : b ≠ unlistedByte a)
    (hm : ∀ c ∈ m, c.1 ≠ a) (h : m.wf) : (m.insert a b).wf := by
  refine ⟨?_, fun c hc => ?_⟩
  · have hs := h.1
    clear h ha hb
    induction m with
    | nil => simp [Memory.insert]
    | cons c m ih =>
      have ⟨hc, hs'⟩ := List.pairwise_cons.mp hs
      simp only [Memory.insert]
      split <;> rename_i hlt
      · refine List.pairwise_cons.mpr ⟨fun d hd => ?_, ih (fun d hd => hm d (by simp [hd])) hs'⟩
        rcases Memory.mem_insert hd with rfl | hd
        · exact hlt
        · exact hc d hd
      · have hne : c.1 ≠ a := hm c (by simp)
        refine List.pairwise_cons.mpr ⟨fun d hd => ?_, hs⟩
        rcases List.mem_cons.mp hd with rfl | hd
        · simp only; omega
        · have := hc d hd
          simp only; omega
  · rcases Memory.mem_insert hc with rfl | hc
    · exact ⟨ha, hb⟩
    · exact h.2 c hc

/-- A write inside the address space keeps the canonical form. -/
theorem Memory.wf_write {m : Memory} {a : Nat} (b : Byte) (ha : a < Config.memSize) (h : m.wf) : (m.write a b).wf := by
  unfold Memory.write
  split <;> rename_i hb
  · exact Memory.wf_erase a h
  · exact Memory.wf_insert ha hb (Memory.erase_ne m a) (Memory.wf_erase a h)

/-- So do bytes written in a row inside the address space. -/
theorem Memory.wf_writeBytes {m : Memory} {a : Nat} (bs : List Byte) (ha : a + bs.length ≤ Config.memSize) (h : m.wf) :
    (m.writeBytes a bs).wf := by
  induction bs generalizing m a with
  | nil => exact h
  | cons b bs ih =>
    simp only [List.length_cons] at ha
    exact ih (by omega) (Memory.wf_write b (by omega) h)

theorem State.reset_mem_wf : State.reset.mem.wf := Memory.wf_nil

/-- Two memories in canonical form that read the same everywhere are the same data. -/
theorem Memory.ext_of_wf {m m' : Memory} (h : m.wf) (h' : m'.wf) (hr : ∀ a, m.read a = m'.read a) : m = m' := by
  have below : ∀ (m : Memory) (a : Nat), (∀ c ∈ m, a < c.1) → m.read a = unlistedByte a := by
    intro m a hm
    induction m with
    | nil => rfl
    | cons c m ih =>
      have : c.1 ≠ a := by have := hm c (by simp); omega
      simp [Memory.read, this, ih (fun d hd => hm d (by simp [hd]))]
  induction m generalizing m' with
  | nil =>
    cases m' with
    | nil => rfl
    | cons c' m' =>
      exfalso
      exact (h'.2 c' (by simp)).2 (by simpa [Memory.read] using (hr c'.1).symm)
  | cons c m ih =>
    have ⟨hc, hs⟩ := List.pairwise_cons.mp h.1
    cases m' with
    | nil =>
      exfalso
      exact (h.2 c (by simp)).2 (by simpa [Memory.read] using hr c.1)
    | cons c' m' =>
      have ⟨hc', hs'⟩ := List.pairwise_cons.mp h'.1
      have hkey : c.1 = c'.1 := by
        rcases Nat.lt_trichotomy c.1 c'.1 with hlt | heq | hgt
        · exfalso
          have hb := below (c' :: m') c.1 (by
            intro d hd
            rcases List.mem_cons.mp hd with rfl | hd
            · exact hlt
            · exact Nat.lt_trans hlt (hc' d hd))
          exact (h.2 c (by simp)).2 (by rw [← hb, ← hr c.1]; simp [Memory.read])
        · exact heq
        · exfalso
          have hb := below (c :: m) c'.1 (by
            intro d hd
            rcases List.mem_cons.mp hd with rfl | hd
            · exact hgt
            · exact Nat.lt_trans hgt (hc d hd))
          exact (h'.2 c' (by simp)).2 (by rw [← hb, hr c'.1]; simp [Memory.read])
      have hval : c.2 = c'.2 := by simpa [Memory.read, hkey] using hr c.1
      have hcc : c = c' := Prod.ext hkey hval
      subst hcc
      congr 1
      refine ih ⟨hs, fun d hd => h.2 d (by simp [hd])⟩ ⟨hs', fun d hd => h'.2 d (by simp [hd])⟩ (fun a => ?_)
      by_cases ha : c.1 = a
      · subst ha
        rw [below m c.1 hc, below m' c.1 hc']
      · simpa [Memory.read, ha] using hr a

end Sys2Proof.Machine
end

