-- ==== Sys2Proof/Laws/State.lean ====
section
/-! SUPPORT. What each update of the state does to each field, so that no later proof unfolds a record update. -/

namespace Sys2Proof.Machine

@[simp] theorem State.setReg_v (s : State) (x : Reg) (b : Byte) : (s.setReg x b).v = s.v.set x.toNat b x.isLt := rfl
@[simp] theorem State.setReg_pc (s : State) (x : Reg) (b : Byte) : (s.setReg x b).pc = s.pc := rfl
@[simp] theorem State.setReg_i (s : State) (x : Reg) (b : Byte) : (s.setReg x b).i = s.i := rfl
@[simp] theorem State.setReg_stack (s : State) (x : Reg) (b : Byte) : (s.setReg x b).stack = s.stack := rfl
@[simp] theorem State.setReg_sp (s : State) (x : Reg) (b : Byte) : (s.setReg x b).sp = s.sp := rfl
@[simp] theorem State.setReg_mem (s : State) (x : Reg) (b : Byte) : (s.setReg x b).mem = s.mem := rfl
@[simp] theorem State.setReg_disp (s : State) (x : Reg) (b : Byte) : (s.setReg x b).disp = s.disp := rfl
@[simp] theorem State.setReg_key (s : State) (x : Reg) (b : Byte) : (s.setReg x b).key = s.key := rfl
@[simp] theorem State.setReg_dt (s : State) (x : Reg) (b : Byte) : (s.setReg x b).dt = s.dt := rfl
@[simp] theorem State.setReg_st (s : State) (x : Reg) (b : Byte) : (s.setReg x b).st = s.st := rfl
@[simp] theorem State.setReg_fault (s : State) (x : Reg) (b : Byte) : (s.setReg x b).fault = s.fault := rfl
@[simp] theorem State.setReg_draws (s : State) (x : Reg) (b : Byte) : (s.setReg x b).draws = s.draws := rfl

@[simp] theorem State.setIndex_v (s : State) (w : Word) : (s.setIndex w).v = s.v := rfl
@[simp] theorem State.setIndex_pc (s : State) (w : Word) : (s.setIndex w).pc = s.pc := rfl
@[simp] theorem State.setIndex_i (s : State) (w : Word) : (s.setIndex w).i = w := rfl
@[simp] theorem State.setIndex_stack (s : State) (w : Word) : (s.setIndex w).stack = s.stack := rfl
@[simp] theorem State.setIndex_sp (s : State) (w : Word) : (s.setIndex w).sp = s.sp := rfl
@[simp] theorem State.setIndex_mem (s : State) (w : Word) : (s.setIndex w).mem = s.mem := rfl
@[simp] theorem State.setIndex_disp (s : State) (w : Word) : (s.setIndex w).disp = s.disp := rfl
@[simp] theorem State.setIndex_key (s : State) (w : Word) : (s.setIndex w).key = s.key := rfl
@[simp] theorem State.setIndex_dt (s : State) (w : Word) : (s.setIndex w).dt = s.dt := rfl
@[simp] theorem State.setIndex_st (s : State) (w : Word) : (s.setIndex w).st = s.st := rfl
@[simp] theorem State.setIndex_fault (s : State) (w : Word) : (s.setIndex w).fault = s.fault := rfl
@[simp] theorem State.setIndex_draws (s : State) (w : Word) : (s.setIndex w).draws = s.draws := rfl
@[simp] theorem State.setIndex_reg (s : State) (w : Word) (r : Reg) : (s.setIndex w).reg r = s.reg r := rfl

@[simp] theorem State.setMem_v (s : State) (m : Memory) : (s.setMem m).v = s.v := rfl
@[simp] theorem State.setMem_pc (s : State) (m : Memory) : (s.setMem m).pc = s.pc := rfl
@[simp] theorem State.setMem_i (s : State) (m : Memory) : (s.setMem m).i = s.i := rfl
@[simp] theorem State.setMem_stack (s : State) (m : Memory) : (s.setMem m).stack = s.stack := rfl
@[simp] theorem State.setMem_sp (s : State) (m : Memory) : (s.setMem m).sp = s.sp := rfl
@[simp] theorem State.setMem_mem (s : State) (m : Memory) : (s.setMem m).mem = m := rfl
@[simp] theorem State.setMem_disp (s : State) (m : Memory) : (s.setMem m).disp = s.disp := rfl
@[simp] theorem State.setMem_key (s : State) (m : Memory) : (s.setMem m).key = s.key := rfl
@[simp] theorem State.setMem_dt (s : State) (m : Memory) : (s.setMem m).dt = s.dt := rfl
@[simp] theorem State.setMem_st (s : State) (m : Memory) : (s.setMem m).st = s.st := rfl
@[simp] theorem State.setMem_fault (s : State) (m : Memory) : (s.setMem m).fault = s.fault := rfl
@[simp] theorem State.setMem_draws (s : State) (m : Memory) : (s.setMem m).draws = s.draws := rfl
@[simp] theorem State.setMem_reg (s : State) (m : Memory) (r : Reg) : (s.setMem m).reg r = s.reg r := rfl

@[simp] theorem State.setDisp_v (s : State) (d : Display) : (s.setDisp d).v = s.v := rfl
@[simp] theorem State.setDisp_pc (s : State) (d : Display) : (s.setDisp d).pc = s.pc := rfl
@[simp] theorem State.setDisp_i (s : State) (d : Display) : (s.setDisp d).i = s.i := rfl
@[simp] theorem State.setDisp_stack (s : State) (d : Display) : (s.setDisp d).stack = s.stack := rfl
@[simp] theorem State.setDisp_sp (s : State) (d : Display) : (s.setDisp d).sp = s.sp := rfl
@[simp] theorem State.setDisp_mem (s : State) (d : Display) : (s.setDisp d).mem = s.mem := rfl
@[simp] theorem State.setDisp_disp (s : State) (d : Display) : (s.setDisp d).disp = d := rfl
@[simp] theorem State.setDisp_key (s : State) (d : Display) : (s.setDisp d).key = s.key := rfl
@[simp] theorem State.setDisp_dt (s : State) (d : Display) : (s.setDisp d).dt = s.dt := rfl
@[simp] theorem State.setDisp_st (s : State) (d : Display) : (s.setDisp d).st = s.st := rfl
@[simp] theorem State.setDisp_fault (s : State) (d : Display) : (s.setDisp d).fault = s.fault := rfl
@[simp] theorem State.setDisp_draws (s : State) (d : Display) : (s.setDisp d).draws = s.draws := rfl
@[simp] theorem State.setDisp_reg (s : State) (d : Display) (r : Reg) : (s.setDisp d).reg r = s.reg r := rfl

@[simp] theorem State.setDt_v (s : State) (b : Byte) : (s.setDt b).v = s.v := rfl
@[simp] theorem State.setDt_pc (s : State) (b : Byte) : (s.setDt b).pc = s.pc := rfl
@[simp] theorem State.setDt_i (s : State) (b : Byte) : (s.setDt b).i = s.i := rfl
@[simp] theorem State.setDt_stack (s : State) (b : Byte) : (s.setDt b).stack = s.stack := rfl
@[simp] theorem State.setDt_sp (s : State) (b : Byte) : (s.setDt b).sp = s.sp := rfl
@[simp] theorem State.setDt_mem (s : State) (b : Byte) : (s.setDt b).mem = s.mem := rfl
@[simp] theorem State.setDt_disp (s : State) (b : Byte) : (s.setDt b).disp = s.disp := rfl
@[simp] theorem State.setDt_key (s : State) (b : Byte) : (s.setDt b).key = s.key := rfl
@[simp] theorem State.setDt_dt (s : State) (b : Byte) : (s.setDt b).dt = b := rfl
@[simp] theorem State.setDt_st (s : State) (b : Byte) : (s.setDt b).st = s.st := rfl
@[simp] theorem State.setDt_fault (s : State) (b : Byte) : (s.setDt b).fault = s.fault := rfl
@[simp] theorem State.setDt_draws (s : State) (b : Byte) : (s.setDt b).draws = s.draws := rfl
@[simp] theorem State.setDt_reg (s : State) (b : Byte) (r : Reg) : (s.setDt b).reg r = s.reg r := rfl

@[simp] theorem State.setSt_v (s : State) (b : Byte) : (s.setSt b).v = s.v := rfl
@[simp] theorem State.setSt_pc (s : State) (b : Byte) : (s.setSt b).pc = s.pc := rfl
@[simp] theorem State.setSt_i (s : State) (b : Byte) : (s.setSt b).i = s.i := rfl
@[simp] theorem State.setSt_stack (s : State) (b : Byte) : (s.setSt b).stack = s.stack := rfl
@[simp] theorem State.setSt_sp (s : State) (b : Byte) : (s.setSt b).sp = s.sp := rfl
@[simp] theorem State.setSt_mem (s : State) (b : Byte) : (s.setSt b).mem = s.mem := rfl
@[simp] theorem State.setSt_disp (s : State) (b : Byte) : (s.setSt b).disp = s.disp := rfl
@[simp] theorem State.setSt_key (s : State) (b : Byte) : (s.setSt b).key = s.key := rfl
@[simp] theorem State.setSt_dt (s : State) (b : Byte) : (s.setSt b).dt = s.dt := rfl
@[simp] theorem State.setSt_st (s : State) (b : Byte) : (s.setSt b).st = b := rfl
@[simp] theorem State.setSt_fault (s : State) (b : Byte) : (s.setSt b).fault = s.fault := rfl
@[simp] theorem State.setSt_draws (s : State) (b : Byte) : (s.setSt b).draws = s.draws := rfl
@[simp] theorem State.setSt_reg (s : State) (b : Byte) (r : Reg) : (s.setSt b).reg r = s.reg r := rfl

@[simp] theorem State.jump_v (s : State) (w : Word) : (s.jump w).v = s.v := rfl
@[simp] theorem State.jump_pc (s : State) (w : Word) : (s.jump w).pc = w := rfl
@[simp] theorem State.jump_i (s : State) (w : Word) : (s.jump w).i = s.i := rfl
@[simp] theorem State.jump_stack (s : State) (w : Word) : (s.jump w).stack = s.stack := rfl
@[simp] theorem State.jump_sp (s : State) (w : Word) : (s.jump w).sp = s.sp := rfl
@[simp] theorem State.jump_mem (s : State) (w : Word) : (s.jump w).mem = s.mem := rfl
@[simp] theorem State.jump_disp (s : State) (w : Word) : (s.jump w).disp = s.disp := rfl
@[simp] theorem State.jump_key (s : State) (w : Word) : (s.jump w).key = s.key := rfl
@[simp] theorem State.jump_dt (s : State) (w : Word) : (s.jump w).dt = s.dt := rfl
@[simp] theorem State.jump_st (s : State) (w : Word) : (s.jump w).st = s.st := rfl
@[simp] theorem State.jump_fault (s : State) (w : Word) : (s.jump w).fault = s.fault := rfl
@[simp] theorem State.jump_draws (s : State) (w : Word) : (s.jump w).draws = s.draws := rfl
@[simp] theorem State.jump_reg (s : State) (w : Word) (r : Reg) : (s.jump w).reg r = s.reg r := rfl

@[simp] theorem State.advance_v (s : State) : (s.advance).v = s.v := rfl
@[simp] theorem State.advance_pc (s : State) : (s.advance).pc = s.pc + 2 := rfl
@[simp] theorem State.advance_i (s : State) : (s.advance).i = s.i := rfl
@[simp] theorem State.advance_stack (s : State) : (s.advance).stack = s.stack := rfl
@[simp] theorem State.advance_sp (s : State) : (s.advance).sp = s.sp := rfl
@[simp] theorem State.advance_mem (s : State) : (s.advance).mem = s.mem := rfl
@[simp] theorem State.advance_disp (s : State) : (s.advance).disp = s.disp := rfl
@[simp] theorem State.advance_key (s : State) : (s.advance).key = s.key := rfl
@[simp] theorem State.advance_dt (s : State) : (s.advance).dt = s.dt := rfl
@[simp] theorem State.advance_st (s : State) : (s.advance).st = s.st := rfl
@[simp] theorem State.advance_fault (s : State) : (s.advance).fault = s.fault := rfl
@[simp] theorem State.advance_draws (s : State) : (s.advance).draws = s.draws := rfl
@[simp] theorem State.advance_reg (s : State) (r : Reg) : (s.advance).reg r = s.reg r := rfl

@[simp] theorem State.enterFault_v (s : State) (f : Fault) : (s.enterFault f).v = s.v := rfl
@[simp] theorem State.enterFault_pc (s : State) (f : Fault) : (s.enterFault f).pc = s.pc := rfl
@[simp] theorem State.enterFault_i (s : State) (f : Fault) : (s.enterFault f).i = s.i := rfl
@[simp] theorem State.enterFault_stack (s : State) (f : Fault) : (s.enterFault f).stack = s.stack := rfl
@[simp] theorem State.enterFault_sp (s : State) (f : Fault) : (s.enterFault f).sp = s.sp := rfl
@[simp] theorem State.enterFault_mem (s : State) (f : Fault) : (s.enterFault f).mem = s.mem := rfl
@[simp] theorem State.enterFault_disp (s : State) (f : Fault) : (s.enterFault f).disp = s.disp := rfl
@[simp] theorem State.enterFault_key (s : State) (f : Fault) : (s.enterFault f).key = s.key := rfl
@[simp] theorem State.enterFault_dt (s : State) (f : Fault) : (s.enterFault f).dt = s.dt := rfl
@[simp] theorem State.enterFault_st (s : State) (f : Fault) : (s.enterFault f).st = s.st := rfl
@[simp] theorem State.enterFault_fault (s : State) (f : Fault) : (s.enterFault f).fault = ⟨true, f.code, s.pc, f.info⟩ := rfl
@[simp] theorem State.enterFault_draws (s : State) (f : Fault) : (s.enterFault f).draws = s.draws := rfl
@[simp] theorem State.enterFault_reg (s : State) (f : Fault) (r : Reg) : (s.enterFault f).reg r = s.reg r := rfl

theorem State.reg_setReg (s : State) (x : Reg) (b : Byte) (r : Reg) :
    (s.setReg x b).reg r = if r = x then b else s.reg r := by
  unfold State.reg State.setReg
  simp only [Vector.getElem_set, BitVec.toNat_inj]
  split <;> split <;> simp_all

@[simp] theorem State.setReg_reg_same (s : State) (x : Reg) (b : Byte) : (s.setReg x b).reg x = b := by
  simp [State.reg_setReg]

theorem State.setReg_reg_other (s : State) (x : Reg) (b : Byte) (r : Reg) (h : r ≠ x) :
    (s.setReg x b).reg r = s.reg r := by
  simp [State.reg_setReg, h]

theorem State.setFlag_eq (s : State) (c : Bool) : s.setFlag c = s.setReg vf (flagByte c) := rfl

@[simp] theorem State.setFlag_pc (s : State) (c : Bool) : (s.setFlag c).pc = s.pc := rfl
@[simp] theorem State.setFlag_i (s : State) (c : Bool) : (s.setFlag c).i = s.i := rfl
@[simp] theorem State.setFlag_stack (s : State) (c : Bool) : (s.setFlag c).stack = s.stack := rfl
@[simp] theorem State.setFlag_sp (s : State) (c : Bool) : (s.setFlag c).sp = s.sp := rfl
@[simp] theorem State.setFlag_mem (s : State) (c : Bool) : (s.setFlag c).mem = s.mem := rfl
@[simp] theorem State.setFlag_disp (s : State) (c : Bool) : (s.setFlag c).disp = s.disp := rfl
@[simp] theorem State.setFlag_key (s : State) (c : Bool) : (s.setFlag c).key = s.key := rfl
@[simp] theorem State.setFlag_dt (s : State) (c : Bool) : (s.setFlag c).dt = s.dt := rfl
@[simp] theorem State.setFlag_st (s : State) (c : Bool) : (s.setFlag c).st = s.st := rfl
@[simp] theorem State.setFlag_fault (s : State) (c : Bool) : (s.setFlag c).fault = s.fault := rfl
@[simp] theorem State.setFlag_draws (s : State) (c : Bool) : (s.setFlag c).draws = s.draws := rfl
@[simp] theorem State.setFlag_reg_vf (s : State) (c : Bool) : (s.setFlag c).reg vf = flagByte c := by
  simp [State.setFlag]

theorem State.reg_setFlag (s : State) (c : Bool) (r : Reg) :
    (s.setFlag c).reg r = if r = vf then flagByte c else s.reg r := by
  simp [State.setFlag, State.reg_setReg]

@[simp] theorem State.skipIf_v (s : State) (c : Bool) : (s.skipIf c).v = s.v := by
  cases c <;> rfl
@[simp] theorem State.skipIf_i (s : State) (c : Bool) : (s.skipIf c).i = s.i := by
  cases c <;> rfl
@[simp] theorem State.skipIf_stack (s : State) (c : Bool) : (s.skipIf c).stack = s.stack := by
  cases c <;> rfl
@[simp] theorem State.skipIf_sp (s : State) (c : Bool) : (s.skipIf c).sp = s.sp := by
  cases c <;> rfl
@[simp] theorem State.skipIf_mem (s : State) (c : Bool) : (s.skipIf c).mem = s.mem := by
  cases c <;> rfl
@[simp] theorem State.skipIf_disp (s : State) (c : Bool) : (s.skipIf c).disp = s.disp := by
  cases c <;> rfl
@[simp] theorem State.skipIf_key (s : State) (c : Bool) : (s.skipIf c).key = s.key := by
  cases c <;> rfl
@[simp] theorem State.skipIf_dt (s : State) (c : Bool) : (s.skipIf c).dt = s.dt := by
  cases c <;> rfl
@[simp] theorem State.skipIf_st (s : State) (c : Bool) : (s.skipIf c).st = s.st := by
  cases c <;> rfl
@[simp] theorem State.skipIf_fault (s : State) (c : Bool) : (s.skipIf c).fault = s.fault := by
  cases c <;> rfl
@[simp] theorem State.skipIf_draws (s : State) (c : Bool) : (s.skipIf c).draws = s.draws := by
  cases c <;> rfl
@[simp] theorem State.skipIf_reg (s : State) (c : Bool) (r : Reg) : (s.skipIf c).reg r = s.reg r := by
  cases c <;> rfl
theorem State.skipIf_pc (s : State) (c : Bool) : (s.skipIf c).pc = if c then s.pc + 2 else s.pc := by
  cases c <;> rfl

@[simp] theorem State.drawRand_fst (s : State) : s.drawRand.1 = Config.rand s.draws := rfl
@[simp] theorem State.drawRand_v (s : State) : s.drawRand.2.v = s.v := rfl
@[simp] theorem State.drawRand_pc (s : State) : s.drawRand.2.pc = s.pc := rfl
@[simp] theorem State.drawRand_i (s : State) : s.drawRand.2.i = s.i := rfl
@[simp] theorem State.drawRand_stack (s : State) : s.drawRand.2.stack = s.stack := rfl
@[simp] theorem State.drawRand_sp (s : State) : s.drawRand.2.sp = s.sp := rfl
@[simp] theorem State.drawRand_mem (s : State) : s.drawRand.2.mem = s.mem := rfl
@[simp] theorem State.drawRand_disp (s : State) : s.drawRand.2.disp = s.disp := rfl
@[simp] theorem State.drawRand_key (s : State) : s.drawRand.2.key = s.key := rfl
@[simp] theorem State.drawRand_dt (s : State) : s.drawRand.2.dt = s.dt := rfl
@[simp] theorem State.drawRand_st (s : State) : s.drawRand.2.st = s.st := rfl
@[simp] theorem State.drawRand_fault (s : State) : s.drawRand.2.fault = s.fault := rfl
@[simp] theorem State.drawRand_draws (s : State) : s.drawRand.2.draws = s.draws + 1 := rfl
@[simp] theorem State.drawRand_reg (s : State) (r : Reg) : s.drawRand.2.reg r = s.reg r := rfl

@[simp] theorem State.setRegsFrom_pc (s : State) (k : Nat) (bs : List Byte) : (s.setRegsFrom k bs).pc = s.pc := by
  induction bs generalizing s k with
  | nil => rfl
  | cons b bs ih => simp [State.setRegsFrom, ih]
@[simp] theorem State.setRegsFrom_i (s : State) (k : Nat) (bs : List Byte) : (s.setRegsFrom k bs).i = s.i := by
  induction bs generalizing s k with
  | nil => rfl
  | cons b bs ih => simp [State.setRegsFrom, ih]
@[simp] theorem State.setRegsFrom_stack (s : State) (k : Nat) (bs : List Byte) : (s.setRegsFrom k bs).stack = s.stack := by
  induction bs generalizing s k with
  | nil => rfl
  | cons b bs ih => simp [State.setRegsFrom, ih]
@[simp] theorem State.setRegsFrom_sp (s : State) (k : Nat) (bs : List Byte) : (s.setRegsFrom k bs).sp = s.sp := by
  induction bs generalizing s k with
  | nil => rfl
  | cons b bs ih => simp [State.setRegsFrom, ih]
@[simp] theorem State.setRegsFrom_mem (s : State) (k : Nat) (bs : List Byte) : (s.setRegsFrom k bs).mem = s.mem := by
  induction bs generalizing s k with
  | nil => rfl
  | cons b bs ih => simp [State.setRegsFrom, ih]
@[simp] theorem State.setRegsFrom_disp (s : State) (k : Nat) (bs : List Byte) : (s.setRegsFrom k bs).disp = s.disp := by
  induction bs generalizing s k with
  | nil => rfl
  | cons b bs ih => simp [State.setRegsFrom, ih]
@[simp] theorem State.setRegsFrom_key (s : State) (k : Nat) (bs : List Byte) : (s.setRegsFrom k bs).key = s.key := by
  induction bs generalizing s k with
  | nil => rfl
  | cons b bs ih => simp [State.setRegsFrom, ih]
@[simp] theorem State.setRegsFrom_dt (s : State) (k : Nat) (bs : List Byte) : (s.setRegsFrom k bs).dt = s.dt := by
  induction bs generalizing s k with
  | nil => rfl
  | cons b bs ih => simp [State.setRegsFrom, ih]
@[simp] theorem State.setRegsFrom_st (s : State) (k : Nat) (bs : List Byte) : (s.setRegsFrom k bs).st = s.st := by
  induction bs generalizing s k with
  | nil => rfl
  | cons b bs ih => simp [State.setRegsFrom, ih]
@[simp] theorem State.setRegsFrom_fault (s : State) (k : Nat) (bs : List Byte) : (s.setRegsFrom k bs).fault = s.fault := by
  induction bs generalizing s k with
  | nil => rfl
  | cons b bs ih => simp [State.setRegsFrom, ih]
@[simp] theorem State.setRegsFrom_draws (s : State) (k : Nat) (bs : List Byte) : (s.setRegsFrom k bs).draws = s.draws := by
  induction bs generalizing s k with
  | nil => rfl
  | cons b bs ih => simp [State.setRegsFrom, ih]

end Sys2Proof.Machine
end

