-- ==== Sys2Proof/Laws/Ops.lean ====
section
/-! SUPPORT. One lemma for each shared operation that says once what it can do; proofs cite these and do not unfold the
operations. -/

namespace Sys2Proof.Machine

open Host (Outcome)

/-! Completing a step -/

@[simp] theorem complete_ok (s t : State) : complete s (.ok t) = .next t := rfl

@[simp] theorem complete_error (s : State) (f : Fault) : complete s (.error f) = .next (s.enterFault f) := rfl

@[simp] theorem raise_eq (f : Fault) (s : State) : raise f s = .next (s.enterFault f) := rfl

/-- A completed step answers a next state: the one left, or the fault taken. -/
theorem complete_next {s t : State} {r : Except Fault State} (h : complete s r = .next t) :
    r = .ok t ∨ ∃ f, r = .error f ∧ t = s.enterFault f := by
  cases r with
  | ok u => simp only [complete_ok, Outcome.next.injEq] at h; exact .inl (h ▸ rfl)
  | error f => simp only [complete_error, Outcome.next.injEq] at h; exact .inr ⟨f, rfl, h.symm⟩

@[simp] theorem guarded_none (t : State) : guarded none t = .ok t := rfl

@[simp] theorem guarded_some (f : Fault) (t : State) : guarded (some f) t = .error f := rfl

/-- A step with a check completes with its result, or takes the fault the check names. -/
theorem complete_guarded {s t u : State} {c : Option Fault} (h : complete s (guarded c t) = .next u) :
    (c = none ∧ u = t) ∨ ∃ f, c = some f ∧ u = s.enterFault f := by
  cases c with
  | none => cases h; exact .inl ⟨rfl, rfl⟩
  | some f => cases h; exact .inr ⟨f, rfl, rfl⟩

/-- The code of every fault is 1 to 6 (60_exceptions.md R170). -/
theorem Fault.code_bounds (f : Fault) : 1 ≤ f.code.toNat ∧ f.code.toNat ≤ 6 := by cases f <;> simp [Fault.code]

/-! The range check -/

/-- Bytes that all lie inside memory pass. -/
theorem rangeFault_inside {base n : Nat} (h : base + n ≤ 4096) : rangeFault base n = none := by
  unfold rangeFault; rw [if_neg]; omega

/-- No bytes at all pass, wherever they would be. -/
@[simp] theorem rangeFault_zero (base : Nat) : rangeFault base 0 = none := by simp [rangeFault]

/-- Bytes that run past 4095 fault at the lowest address outside. -/
theorem rangeFault_outside {base n : Nat} (hn : 0 < n) (h : 4096 < base + n) :
    rangeFault base n = some (.memoryOutOfRange (max base 4096)) := by
  unfold rangeFault; rw [if_pos ⟨hn, by omega⟩]

/-- The two outcomes of the check. -/
theorem rangeFault_cases (base n : Nat) :
    ((n = 0 ∨ base + n ≤ 4096) ∧ rangeFault base n = none) ∨
    (0 < n ∧ 4096 < base + n ∧ rangeFault base n = some (.memoryOutOfRange (max base 4096))) := by
  by_cases h : n = 0 ∨ base + n ≤ 4096
  · refine .inl ⟨h, ?_⟩
    rcases h with rfl | h
    · simp
    · exact rangeFault_inside h
  · exact .inr ⟨by omega, by omega, rangeFault_outside (by omega) (by omega)⟩

/-! The stack -/

/-- A push with a slot free. -/
theorem State.push_ok (s : State) (w : Word) (h : s.sp.val < 16) :
    s.push w = .ok { s with stack := s.stack.set s.sp.val w h, sp := ⟨s.sp.val + 1, Nat.succ_lt_succ h⟩ } := by
  simp [State.push, h]

/-- A push on a full stack. -/
theorem State.push_full (s : State) (w : Word) (h : s.sp.val = 16) : s.push w = .error .stackOverflow := by
  simp [State.push, h]

/-- A pop of an empty stack. -/
theorem State.pop_empty (s : State) (h : s.sp.val = 0) : s.pop = .error .stackUnderflow := by
  have : s.sp = ⟨0, by decide⟩ := Fin.ext h
  simp only [State.pop, this]

/-- A pop with `k + 1` addresses on the stack. -/
theorem State.pop_ok (s : State) (k : Nat) (h : s.sp.val = k + 1) (hk : k < 16) :
    s.pop = .ok (s.stack[k], { s with sp := ⟨k, Nat.lt_succ_of_lt hk⟩ }) := by
  have : s.sp = ⟨k + 1, Nat.succ_lt_succ hk⟩ := Fin.ext h
  simp only [State.pop, this]

/-- A CALL from the outcome of its push. -/
theorem execCall_eq (s : State) (nnn : Addr) {r : Except Fault State} (h : s.advance.push s.advance.pc = r) :
    exec (.call nnn) s = complete s (r.map fun t => t.jump (absolute nnn)) := by subst h; rfl

/-- A RET from the outcome of its pop. -/
theorem execRet_eq (s : State) {r : Except Fault (Word × State)} (h : s.advance.pop = r) :
    exec .ret s = complete s (r.map fun p => p.2.jump p.1) := by subst h; rfl

/-! Keys -/

theorem State.keyPressed_ok (s : State) (x : Reg) (h : (s.reg x).toNat < 16) :
    s.keyPressed x = .ok (s.key[(s.reg x).toNat]) := by
  simp [State.keyPressed, h]

theorem State.keyPressed_error (s : State) (x : Reg) (h : 16 ≤ (s.reg x).toNat) :
    s.keyPressed x = .error (.keyIndexOutOfRange (s.reg x)) := by
  simp [State.keyPressed, Nat.not_lt.mpr h]

/-- With a key pressed, the least one is found. -/
theorem State.lowestKey_some (s : State) (k : Fin 16) (hk : s.key[k] = true) (hmin : ∀ j, j < k → s.key[j] = false) :
    s.lowestKey = some k := by
  unfold State.lowestKey
  rw [List.find?_eq_some_iff_append]
  refine ⟨hk, (List.finRange 16).take k.val, (List.finRange 16).drop (k.val + 1), ?_, fun j hj => ?_⟩
  · have hlen : k.val < (List.finRange 16).length := by simp
    have : (List.finRange 16)[k.val] = k := by simp
    conv_lhs => rw [← List.take_append_drop k.val (List.finRange 16)]
    rw [List.drop_eq_getElem_cons hlen, this]
  · have hjk : j < k := by
      obtain ⟨n, hn, rfl⟩ := List.mem_iff_getElem.mp hj
      simp only [List.length_take, List.length_finRange] at hn
      simp only [List.getElem_take, List.getElem_finRange, Fin.lt_def, Fin.val_cast]
      omega
    simp [hmin j hjk]

/-- With no key pressed, none is found. -/
theorem State.lowestKey_none (s : State) (h : ∀ k : Fin 16, s.key[k] = false) : s.lowestKey = none := by
  unfold State.lowestKey
  rw [List.find?_eq_none]
  intro k _
  simp [h k]

/-! Register lists -/

/-- The registers from `k` on take the bytes of the list, every other register keeps its value. -/
theorem State.setRegsFrom_reg (s : State) (k : Nat) (bs : List Byte) (hk : k + bs.length ≤ 16) (r : Reg) :
    (s.setRegsFrom k bs).reg r =
      if h : k ≤ r.toNat ∧ r.toNat - k < bs.length then bs[r.toNat - k]'h.2 else s.reg r := by
  induction bs generalizing s k with
  | nil => simp [State.setRegsFrom]
  | cons b bs ih =>
    simp only [List.length_cons] at hk
    rw [State.setRegsFrom, ih _ _ (by omega), State.reg_setReg]
    have hr := r.isLt
    by_cases h1 : r = BitVec.ofNat 4 k
    · have h1' : r.toNat = k := by rw [h1]; simp; omega
      rw [dif_neg (by omega), if_pos h1, dif_pos (by simp; omega)]
      simp [h1']
    · have h1' : r.toNat ≠ k := fun h => h1 (by apply BitVec.eq_of_toNat_eq; simp [← h])
      by_cases h2 : k + 1 ≤ r.toNat ∧ r.toNat - (k + 1) < bs.length
      · rw [dif_pos h2, dif_pos (by simp; omega)]
        have : r.toNat - k = (r.toNat - (k + 1)) + 1 := by omega
        simp only [this, List.getElem_cons_succ]
      · rw [dif_neg h2, if_neg h1, dif_neg (by simp; omega)]

/-- What a register holds after `V[0]` to `V[X]` are loaded from memory (43_index_memory.md R145). -/
theorem State.reg_loaded (s : State) (x r : Reg) :
    (s.advance.setRegsFrom 0 (s.mem.readBytes (s.ea 0) (x.toNat + 1))).reg r =
      if r.toNat ≤ x.toNat then s.mem.read (s.ea r.toNat) else s.reg r := by
  have hx := x.isLt
  rw [State.setRegsFrom_reg _ _ _ (by simp; omega)]
  simp only [Memory.readBytes_length, Nat.zero_le, true_and, Nat.sub_zero, Memory.readBytes_getElem, State.advance_reg]
  by_cases h : r.toNat ≤ x.toNat
  · rw [dif_pos (by omega), if_pos h]; simp [State.ea]
  · rw [dif_neg (by omega), if_neg h]

@[simp] theorem State.firstRegs_length (s : State) (x : Reg) : (s.firstRegs (x.toNat + 1)).length = x.toNat + 1 := by
  have := x.isLt
  simp [State.firstRegs]
  omega

/-! The step -/

theorem State.fetch_ok (s : State) (h : s.pc.toNat ≤ 4094) :
    s.fetch = .ok (bigEndian (s.mem.read s.pc.toNat) (s.mem.read (s.pc.toNat + 1))) := by
  rw [State.fetch, if_neg (by omega)]

theorem State.fetch_error (s : State) (h : 4094 < s.pc.toNat) : s.fetch = .error (.fetchOutOfRange s.pc) := by
  rw [State.fetch, if_pos h]

/-- A fetch that answers a word had both bytes inside memory. -/
theorem State.fetch_ok_bound {s : State} {w : Word} (h : s.fetch = .ok w) : s.pc.toNat ≤ 4094 := by
  unfold State.fetch at h
  split at h
  · cases h
  · omega

/-- Everything a step can do: nothing, on a faulted machine; a fetch fault; an illegal word; or the decoded instruction. -/
theorem step_cases (s : State) :
    (s.fault.valid = true ∧ step s = .next s) ∨
    (s.fault.valid = false ∧
      ((4094 < s.pc.toNat ∧ step s = .next (s.enterFault (.fetchOutOfRange s.pc))) ∨
       ∃ w, s.pc.toNat ≤ 4094 ∧ s.fetch = .ok w ∧
        ((decodeWord w = none ∧ step s = .next (s.enterFault (.illegalInstruction w))) ∨
         ∃ i, decodeWord w = some i ∧ step s = exec i s))) := by
  by_cases hv : s.fault.valid = true
  · exact .inl ⟨hv, by simp [step, hv]⟩
  · have hv' : s.fault.valid = false := by simpa using hv
    refine .inr ⟨hv', ?_⟩
    by_cases hp : 4094 < s.pc.toNat
    · exact .inl ⟨hp, by simp [step, hv', State.fetch_error s hp]⟩
    · have hf := State.fetch_ok s (by omega)
      refine .inr ⟨_, by omega, hf, ?_⟩
      cases hd : decodeWord (bigEndian (s.mem.read s.pc.toNat) (s.mem.read (s.pc.toNat + 1))) with
      | none => exact .inl ⟨rfl, by simp [step, hv', hf, hd]⟩
      | some i => exact .inr ⟨i, rfl, by simp [step, hv', hf, hd]⟩

end Sys2Proof.Machine
end

