-- ==== Sys2Proof/Laws/Drawing.lean ====
section
/-! SUPPORT. What drawing a bit, a row and a sprite does to every pixel and to the note of an erased one. -/

namespace Sys2Proof.Machine

@[simp] theorem Display.pixel_clear (x : Fin 64) (y : Fin 32) : Display.clear.pixel x y = false := by
  simp [Display.clear, Display.pixel]

/-- Toggling inverts one pixel and no other. -/
theorem Display.pixel_toggle (d : Display) (x : Fin 64) (y : Fin 32) (px : Fin 64) (py : Fin 32) :
    (d.toggle x y).pixel px py = (if px = x ∧ py = y then !d.pixel px py else d.pixel px py) := by
  unfold Display.toggle Display.pixel
  by_cases hy : py = y
  · subst hy
    by_cases hx : px = x
    · subst hx; simp
    · have : x.val ≠ px.val := fun h => hx (Fin.ext h.symm)
      simp [hx, this]
  · have : y.val ≠ py.val := fun h => hy (Fin.ext h.symm)
    simp [hy, this]

/-- Two displays with the same pixels are the same. -/
theorem Display.ext_pixel {d e : Display} (h : ∀ x y, d.pixel x y = e.pixel x y) : d = e := by
  apply Vector.ext
  intro y hy
  apply Vector.ext
  intro x hx
  exact h ⟨x, hx⟩ ⟨y, hy⟩

/-- A clear bit draws nothing (44_display.md R151). -/
theorem drawBit_clear (b : Byte) (x0 : Nat) (y : Fin 32) (acc : Drawing) (c : Nat) (h : b.getLsbD (7 - c) = false) :
    drawBit b x0 y acc c = acc := by
  simp [drawBit, h]

/-- A set bit toggles its pixel and notes whether it was on (R151, R153). -/
theorem drawBit_set (b : Byte) (x0 : Nat) (y : Fin 32) (acc : Drawing) (c : Nat) (h : b.getLsbD (7 - c) = true) :
    drawBit b x0 y acc c = (acc.1.toggle (column x0 c) y, acc.2 || acc.1.pixel (column x0 c) y) := by
  simp [drawBit, h]

/-- The first `m` bits of a row byte, drawn: the pixels they set are inverted, and the note says whether one of them was on
(R151, R153). No two of the bits reach the same pixel (R155). -/
theorem drawBits_spec (b : Byte) (x0 : Nat) (y : Fin 32) (m : Nat) (hm : m ≤ 8) (acc : Drawing) :
    let out := (List.range m).foldl (drawBit b x0 y) acc
   (∀ px py, out.1.pixel px py = (acc.1.pixel px py != decide (py = y ∧ ∃ c, c < m ∧ b.getLsbD (7 - c) = true ∧ px = column x0 c))) ∧
   (out.2 = true ↔ acc.2 = true ∨ ∃ c, c < m ∧ b.getLsbD (7 - c) = true ∧ acc.1.pixel (column x0 c) y = true) := by
  induction m with
  | zero => simp
  | succ m ih =>
    have ⟨ih1, ih2⟩ := ih (by omega)
    simp only [List.range_succ, List.foldl_append, List.foldl_cons, List.foldl_nil]
    generalize hq : (List.range m).foldl (drawBit b x0 y) acc = q at ih1 ih2
    by_cases hb : b.getLsbD (7 - m) = true
    · rw [drawBit_set _ _ _ _ _ hb]
      have hinj : ∀ c, c < m → column x0 c ≠ column x0 m := by
        intro c hc h; have := congrArg Fin.val h; simp only [column] at this; omega
      have hcm : q.1.pixel (column x0 m) y = acc.1.pixel (column x0 m) y := by
        rw [ih1]; have : ¬ ∃ c, c < m ∧ b.getLsbD (7 - c) = true ∧ column x0 m = column x0 c := by
          rintro ⟨c, hc, _, h⟩; exact hinj c hc h.symm
        simp [this]
      constructor
      · intro px py
        rw [Display.pixel_toggle]
        by_cases hp : px = column x0 m ∧ py = y
        · obtain ⟨rfl, rfl⟩ := hp
          have : ∃ c, c < m + 1 ∧ b.getLsbD (7 - c) = true ∧ column x0 m = column x0 c := ⟨m, by omega, hb, rfl⟩
          rw [if_pos ⟨rfl, rfl⟩, hcm, decide_eq_true ⟨rfl, this⟩]; simp
        · rw [if_neg hp, ih1]
          congr 1
          apply decide_eq_decide.mpr
          constructor
          · rintro ⟨h1, c, h2, h3, h4⟩; exact ⟨h1, c, by omega, h3, h4⟩
          · rintro ⟨h1, c, h2, h3, h4⟩
            refine ⟨h1, c, ?_, h3, h4⟩
            rcases Nat.lt_succ_iff_lt_or_eq.mp h2 with h | rfl
            · exact h
            · exact absurd ⟨h4, h1⟩ hp
      · simp only [Bool.or_eq_true, ih2, hcm]
        constructor
        · rintro ((h | ⟨c, h1, h2, h3⟩) | h)
          · exact .inl h
          · exact .inr ⟨c, by omega, h2, h3⟩
          · exact .inr ⟨m, by omega, hb, h⟩
        · rintro (h | ⟨c, h1, h2, h3⟩)
          · exact .inl (.inl h)
          · rcases Nat.lt_succ_iff_lt_or_eq.mp h1 with h | rfl
            · exact .inl (.inr ⟨c, h, h2, h3⟩)
            · exact .inr h3
    · have hb' : b.getLsbD (7 - m) = false := by simpa using hb
      rw [drawBit_clear _ _ _ _ _ hb']
      have hx : ∀ P : Nat → Prop, (∃ c, c < m + 1 ∧ b.getLsbD (7 - c) = true ∧ P c) ↔ (∃ c, c < m ∧ b.getLsbD (7 - c) = true ∧ P c) := by
        intro P; constructor
        · rintro ⟨c, h1, h2, h3⟩
          rcases Nat.lt_succ_iff_lt_or_eq.mp h1 with h | rfl
          · exact ⟨c, h, h2, h3⟩
          · exact absurd h2 hb
        · rintro ⟨c, h1, h2⟩; exact ⟨c, by omega, h2⟩
      constructor
      · intro px py; rw [ih1]; simp only [hx]
      · rw [ih2]; simp only [hx]

/-- The rows of a sprite, drawn: the covered pixels are inverted, the others kept, and the note says whether a covered one was
on (R151 to R153). -/
theorem drawRows_spec (x0 y0 : Nat) (bs : List Byte) (r0 : Nat) (hl : bs.length ≤ 32) (acc : Drawing) :
   let out := drawRows x0 y0 bs r0 acc
   let cov := fun px py => ∃ k c, ∃ h : k < bs.length, c < 8 ∧ bs[k].getLsbD (7 - c) = true ∧ px = column x0 c ∧ py = row y0 (r0 + k)
   (∀ px py, cov px py → out.1.pixel px py = !acc.1.pixel px py) ∧
   (∀ px py, ¬ cov px py → out.1.pixel px py = acc.1.pixel px py) ∧
   (out.2 = true ↔ acc.2 = true ∨ ∃ px py, cov px py ∧ acc.1.pixel px py = true) := by
  induction bs generalizing r0 acc with
  | nil => simp [drawRows]
  | cons b bs ih =>
    simp only [List.length_cons] at hl
    have ⟨i1, i2, i3⟩ := ih (r0 + 1) (by omega) (drawRow b x0 (row y0 r0) acc)
    have ⟨j1, j2⟩ := drawBits_spec b x0 (row y0 r0) 8 (by omega) acc
    simp only [drawRows]
    have hrow : ∀ k, k < bs.length → row y0 (r0 + 1 + k) ≠ row y0 r0 := by
      intro k hk h; have := congrArg Fin.val h; simp only [row] at this; omega
    -- split cover
    have hsplit : ∀ px py, (∃ k c, ∃ h : k < (b :: bs).length, c < 8 ∧ (b :: bs)[k].getLsbD (7 - c) = true ∧ px = column x0 c ∧ py = row y0 (r0 + k)) ↔
       (py = row y0 r0 ∧ ∃ c, c < 8 ∧ b.getLsbD (7 - c) = true ∧ px = column x0 c) ∨
       (∃ k c, ∃ h : k < bs.length, c < 8 ∧ bs[k].getLsbD (7 - c) = true ∧ px = column x0 c ∧ py = row y0 (r0 + 1 + k)) := by
      intro px py; constructor
      · rintro ⟨k, c, h, h1, h2, h3, h4⟩
        cases k with
        | zero => exact .inl ⟨h4, c, h1, h2, h3⟩
        | succ k => exact .inr ⟨k, c, by simpa using h, h1, h2, h3, by rw [h4]; congr 1; omega⟩
      · rintro (⟨h4, c, h1, h2, h3⟩ | ⟨k, c, h, h1, h2, h3, h4⟩)
        · exact ⟨0, c, by simp, h1, h2, h3, h4⟩
        · exact ⟨k + 1, c, by simpa using h, h1, h2, h3, by rw [h4]; congr 1; omega⟩
    simp only [hsplit]
    refine ⟨fun px py hc => ?_, fun px py hc => ?_, ?_⟩
    · rcases hc with hc | hc
      · have hn : ¬ ∃ k c, ∃ h : k < bs.length, c < 8 ∧ bs[k].getLsbD (7 - c) = true ∧ px = column x0 c ∧ py = row y0 (r0 + 1 + k) := by
          rintro ⟨k, c, h, _, _, _, h4⟩; exact hrow k h (h4.symm.trans hc.1)
        rw [i2 px py hn]; unfold drawRow; rw [j1, decide_eq_true hc]; simp
      · rw [i1 px py hc]; unfold drawRow; rw [j1, decide_eq_false]; simp
        rintro ⟨h5, _⟩; obtain ⟨k, c, h, _, _, _, h4⟩ := hc; exact hrow k h (h4.symm.trans h5)
    · rw [i2 px py (fun h => hc (.inr h))]; unfold drawRow; rw [j1, decide_eq_false (fun h => hc (.inl h))]; simp
    · rw [i3]; unfold drawRow; rw [j2]
      constructor
      · rintro ((h | ⟨c, h1, h2, h3⟩) | ⟨px, py, h1, h2⟩)
        · exact .inl h
        · exact .inr ⟨_, _, .inl ⟨rfl, c, h1, h2, rfl⟩, h3⟩
        · refine .inr ⟨px, py, .inr h1, ?_⟩
          rw [j1, decide_eq_false] at h2
          · simpa using h2
          · rintro ⟨h5, _⟩; obtain ⟨k, c, h, _, _, _, h4⟩ := h1; exact hrow k h (h4.symm.trans h5)
      · rintro (h | ⟨px, py, (⟨rfl, c, h1, h2, rfl⟩ | h1), h3⟩)
        · exact .inl (.inl h)
        · exact .inl (.inr ⟨c, h1, h2, h3⟩)
        · refine .inr ⟨px, py, h1, ?_⟩
          rw [j1, decide_eq_false]
          · simpa using h3
          · rintro ⟨h5, _⟩; obtain ⟨k, c, h, _, _, _, h4⟩ := h1; exact hrow k h (h4.symm.trans h5)

@[simp] theorem flagByte_true : flagByte true = 1 := rfl

@[simp] theorem flagByte_false : flagByte false = 0 := rfl

end Sys2Proof.Machine
end

