-- ==== Sys2Proof/Laws/Encoding.lean ====
section
/-! SUPPORT. What each field extractor reads from each format (30_encoding.md R82, R83). -/

namespace Sys2Proof

theorem fieldD1_formatA (d : Nibble) (nnn : Addr) : fieldD1 (formatA d nnn) = d := by
  unfold fieldD1 field formatA
  exact BitVec.extractLsb'_append_eq_left

theorem fieldNNN_formatA (d : Nibble) (nnn : Addr) : fieldNNN (formatA d nnn) = nnn := by
  unfold fieldNNN field formatA
  exact BitVec.extractLsb'_append_eq_right

theorem fieldNN_formatXI (d : Nibble) (x : Reg) (nn : Byte) : fieldNN (formatXI d x nn) = nn := by
  unfold fieldNN field formatXI
  exact BitVec.extractLsb'_append_eq_right

theorem fieldD1_formatXI (d : Nibble) (x : Reg) (nn : Byte) : fieldD1 (formatXI d x nn) = d := by
  unfold fieldD1 field formatXI
  rw [BitVec.extractLsb'_append_eq_of_le (by decide)]
  exact BitVec.extractLsb'_append_eq_left

theorem fieldX_formatXI (d : Nibble) (x : Reg) (nn : Byte) : fieldX (formatXI d x nn) = x := by
  unfold fieldX field formatXI
  rw [BitVec.extractLsb'_append_eq_of_le (by decide)]
  exact BitVec.extractLsb'_append_eq_right

theorem formatXY_eq (d : Nibble) (x y : Reg) (n : Nibble) : formatXY d x y n = formatXI d x (y ++ n) := rfl

theorem fieldD1_formatXY (d : Nibble) (x y : Reg) (n : Nibble) : fieldD1 (formatXY d x y n) = d := by
  rw [formatXY_eq, fieldD1_formatXI]

theorem fieldX_formatXY (d : Nibble) (x y : Reg) (n : Nibble) : fieldX (formatXY d x y n) = x := by
  rw [formatXY_eq, fieldX_formatXI]

theorem fieldN_formatXY (d : Nibble) (x y : Reg) (n : Nibble) : fieldN (formatXY d x y n) = n := by
  unfold fieldN field formatXY
  rw [BitVec.extractLsb'_append_eq_of_add_le (by decide)]
  exact BitVec.extractLsb'_append_eq_right

theorem fieldY_formatXY (d : Nibble) (x y : Reg) (n : Nibble) : fieldY (formatXY d x y n) = y := by
  unfold fieldY field formatXY
  rw [BitVec.extractLsb'_append_eq_of_add_le (by decide)]
  exact BitVec.extractLsb'_append_eq_left

/-- A word is its major opcode and NNN. -/
theorem formatA_fields (w : Word) : formatA (fieldD1 w) (fieldNNN w) = w := by
  unfold formatA fieldD1 fieldNNN field
  exact BitVec.extractLsb'_append_extractLsb'_eq_extractLsb' rfl |>.trans (by simp)

/-- Neighbouring fields together are one field. -/
theorem field_append (w : Word) (lo len1 len2 : Nat) :
    field w (lo + len2) len1 ++ field w lo len2 = field w lo (len1 + len2) :=
  BitVec.extractLsb'_append_extractLsb'_eq_extractLsb' rfl

/-- A word is its major opcode, X and NN. -/
theorem formatXI_fields (w : Word) : formatXI (fieldD1 w) (fieldX w) (fieldNN w) = w := by
  unfold formatXI fieldD1 fieldX fieldNN
  have h1 : field w 12 4 ++ field w 8 4 = field w 8 8 := field_append w 8 4 4
  have h2 : field w 8 8 ++ field w 0 8 = field w 0 16 := field_append w 0 8 8
  rw [h1, h2]
  simp [field]

/-- A word is its four nibbles. -/
theorem formatXY_fields (w : Word) : formatXY (fieldD1 w) (fieldX w) (fieldY w) (fieldN w) = w := by
  have h : fieldY w ++ fieldN w = fieldNN w := field_append w 0 4 4
  rw [formatXY_eq, h, formatXI_fields]

/-- The two bytes of a word in memory are the word again (20_memory.md R58). -/
theorem bigEndian_wordBytes (w : Word) : bigEndian (field w 8 8) (field w 0 8) = w := by
  unfold bigEndian field
  exact BitVec.extractLsb'_append_extractLsb'_eq_extractLsb' rfl |>.trans (by simp)

end Sys2Proof
end

