-- ==== Sys2Proof/Laws/Frames.lean ====
section
/-! SUPPORT. The frames of Safety.lean for the updates the meanings are made of. -/

namespace Sys2Proof.Machine

/-- Moving PC writes nothing else. -/
theorem onlyRegs_jump (s : State) (w : Word) : OnlyRegs s (s.jump w) [] :=
  ⟨fun _ _ => rfl, rfl, fun _ => rfl, ⟨rfl, rfl⟩, rfl, rfl, rfl, rfl, rfl⟩

/-- A skip, taken or not, writes PC alone. -/
theorem onlyRegs_skipIf (s : State) (c : Bool) : OnlyRegs s (s.advance.skipIf c) [] := by
  cases c <;> exact onlyRegs_jump s _

/-- An advance and one register write. -/
theorem onlyRegs_setReg (s : State) (x : Reg) (b : Byte) : OnlyRegs s (s.advance.setReg x b) [x] := by
  refine ⟨fun r hr => ?_, rfl, fun _ => rfl, ⟨rfl, rfl⟩, rfl, rfl, rfl, rfl, rfl⟩
  have : r ≠ x := by simpa using hr
  simp [State.setReg_reg_other, this]

/-- An advance and two register writes, in either order. -/
theorem onlyRegs_setReg_setReg (s : State) (x y : Reg) (b c : Byte) (xs : List Reg) (hx : x ∈ xs) (hy : y ∈ xs) :
    OnlyRegs s ((s.advance.setReg x b).setReg y c) xs := by
  refine ⟨fun r hr => ?_, rfl, fun _ => rfl, ⟨rfl, rfl⟩, rfl, rfl, rfl, rfl, rfl⟩
  have h1 : r ≠ x := fun h => hr (h ▸ hx)
  have h2 : r ≠ y := fun h => hr (h ▸ hy)
  simp [State.setReg_reg_other, h1, h2]

/-- A taken fault is a faulting step (60_exceptions.md R177). -/
theorem faultTaken_enterFault (s : State) (f : Fault) : FaultTaken s (s.enterFault f) f.code f.info := rfl

/-- The registers LDM may write are `V[0]` to `V[X]`. -/
theorem mem_destRegs_ldm (x r : Reg) : r ∈ destRegs (.ldm x) ↔ r.toNat ≤ x.toNat := by
  simp only [destRegs, List.mem_map, List.mem_range]
  have := x.isLt
  have := r.isLt
  constructor
  · rintro ⟨a, h, rfl⟩
    simp
    omega
  · intro h
    exact ⟨r.toNat, by omega, by simp⟩

/-- The rows and columns of the bytes read at `I` are the covered pixels (44_display.md R151, R152). -/
theorem spriteCovers_iff (s : State) (x y : Reg) (n : Nibble) (px : Fin 64) (py : Fin 32) :
    SpriteCovers s x y n px py ↔
      ∃ k c, ∃ h : k < (s.mem.readBytes (s.ea 0) n.toNat).length, c < 8 ∧
        (s.mem.readBytes (s.ea 0) n.toNat)[k].getLsbD (7 - c) = true ∧
        px = column (s.reg x).toNat c ∧ py = row (s.reg y).toNat (0 + k) := by
  unfold SpriteCovers
  constructor
  · rintro ⟨r, c, h1, h2, h3, h4, h5⟩
    exact ⟨r, c, by simpa using h1, h2, by rw [Memory.readBytes_getElem]; simpa [State.ea] using h3, Fin.ext h4,
      Fin.ext (by simpa [row] using h5)⟩
  · rintro ⟨r, c, h1, h2, h3, h4, h5⟩
    refine ⟨r, c, by simpa using h1, h2, ?_, by rw [h4]; rfl, by rw [h5]; simp [row]⟩
    rw [Memory.readBytes_getElem] at h3
    simpa [State.ea] using h3

end Sys2Proof.Machine
end

