-- ==== Sys2Proof/Laws/HostOps.lean ====
section
/-! SUPPORT. What each operation of the timer unit and of the host can do, said once. -/

namespace Sys2Proof.Machine

/-- Counting down lowers by one, with the floor 0. -/
@[simp] theorem countDown_toNat (b : Byte) : (countDown b).toNat = b.toNat - 1 := by
  unfold countDown
  split
  · simp_all
  · rename_i h
    have h1 := BitVec.toNat_ne.mp h
    have := b.isLt
    simp [BitVec.toNat_sub] at *
    omega

/-- A tick of a running machine (60_exceptions.md R184). -/
theorem State.tickTimers_running (s : State) (h : s.fault.valid = false) :
    s.tickTimers = (s.setDt (countDown s.dt)).setSt (countDown s.st) := by
  simp [State.tickTimers, h]

/-- A tick of a faulted machine (R178). -/
theorem State.tickTimers_faulted (s : State) (h : s.fault.valid = true) : s.tickTimers = s := by
  simp [State.tickTimers, h]

/-- An accepted `load` (70_reset_and_hazards.md R203). -/
theorem State.load_accepted (s : State) (bytes : List Byte) (h : s.fault.valid = false) (hl : bytes.length ≤ 3584) :
    s.load bytes = (s.setMem (s.mem.writeBytes 512 bytes), .ok) := by
  simp [State.load, State.acceptsLoad, h, hl]

/-- A rejected `load` (R204). -/
theorem State.load_rejected (s : State) (bytes : List Byte) (h : s.fault.valid = true ∨ 3584 < bytes.length) :
    s.load bytes = (s, .rejected) := by
  have : s.acceptsLoad bytes = false := by
    simp only [State.acceptsLoad]
    rcases h with h | h
    · simp [h]
    · simp [Nat.not_le.mpr h]
  simp [State.load, this]

/-- `setKey` of a running machine with an index that exists (R187). -/
theorem State.setKey_running (s : State) (k : Nat) (b : Bool) (h : s.fault.valid = false) (hk : k < 16) :
    s.setKey k b = { s with key := s.key.set k b hk } := by
  simp [State.setKey, h, hk]

/-- `setKey` refused: the machine is faulted (R178) or there is no such key (R187). -/
theorem State.setKey_refused (s : State) (k : Nat) (b : Bool) (h : s.fault.valid = true ∨ 16 ≤ k) :
    s.setKey k b = s := by
  unfold State.setKey
  split
  · rfl
  · rename_i hv
    rcases h with h | h
    · exact absurd h hv
    · rw [dif_neg (by omega)]

/-- What a reset leaves is what a new machine holds, but for the count of drawn bytes (R201). -/
theorem State.hostReset_eq (s : State) : s.hostReset = { State.reset with draws := s.draws } := rfl

@[simp] theorem runOps_nil (s : State) : runOps s [] = s := rfl

@[simp] theorem runOps_cons (s : State) (op : Operation) (ops : List Operation) :
    runOps s (op :: ops) = runOps (op.apply s).1 ops := rfl

/-- An invariant that every operation keeps holds of every state an execution reaches (R215). -/
theorem runOps_induction {P : State → Prop} (hop : ∀ s op, P s → P (Operation.apply s op).1) (s : State)
    (ops : List Operation) (h : P s) : P (runOps s ops) := by
  induction ops generalizing s with
  | nil => exact h
  | cons op ops ih => exact ih _ (hop s op h)

@[simp] theorem stateAt_zero (s : State) (sched : Schedule) : stateAt s sched 0 = s := rfl

@[simp] theorem stateAt_succ (s : State) (sched : Schedule) (n : Nat) :
    stateAt s sched (n + 1) = ((sched n).apply (stateAt s sched n)).1 := rfl

@[simp] theorem Schedule.take_zero (sched : Schedule) : sched.take 0 = [] := rfl

@[simp] theorem Schedule.take_succ (sched : Schedule) (n : Nat) : sched.take (n + 1) = sched.take n ++ [sched n] := by
  simp [Schedule.take, List.range_succ]

theorem runOps_append (s : State) (xs ys : List Operation) : runOps s (xs ++ ys) = runOps (runOps s xs) ys :=
  List.foldl_append

/-- The states of an infinite execution are those its finite prefixes reach. -/
theorem stateAt_eq_runOps (s : State) (sched : Schedule) (n : Nat) : stateAt s sched n = runOps s (sched.take n) := by
  induction n with
  | zero => rfl
  | succ n ih => rw [stateAt_succ, ih, Schedule.take_succ, runOps_append]; rfl

/-- An invariant that every operation keeps holds along an infinite execution. -/
theorem stateAt_induction {P : State → Prop} (hop : ∀ s op, P s → P (Operation.apply s op).1) (s : State)
    (sched : Schedule) (h : P s) (n : Nat) : P (stateAt s sched n) := by
  induction n with
  | zero => exact h
  | succ n ih => exact hop _ _ ih

end Sys2Proof.Machine
end

