-- ==== Sys2Proof/Laws/PerInstr.lean ====
section
/-! SUPPORT. A law of every instruction as syntax: its encoding matches its own row of the opcode table (30_encoding.md R86),
and that row is one of the table's. -/

namespace Sys2Proof.Laws.EncodingMatchesRow

/-- The word of an instruction matches the instruction's row of the closed table. -/
def Statement (i : Instr) : Prop := i.row ∈ opcodeTable ∧ encode i &&& i.row.mask = i.row.bits

theorem formatA_masked (d : Nibble) (nnn : Addr) : formatA d nnn &&& 0xF000 = d ++ (0 : Addr) := by
  unfold formatA
  rw [show (0xF000 : Word) = (0xF : Nibble) ++ (0 : Addr) from rfl, BitVec.and_append]
  congr 1
  · revert d; decide
  · exact BitVec.and_zero

theorem formatXI_masked (d : Nibble) (x : Reg) (nn : Byte) : formatXI d x nn &&& 0xF000 = (d ++ (0 : Nibble)) ++ (0 : Byte) := by
  unfold formatXI
  rw [show (0xF000 : Word) = ((0xF : Nibble) ++ (0 : Nibble)) ++ (0 : Byte) from rfl, BitVec.and_append, BitVec.and_append]
  congr 2
  · revert d; decide
  · exact BitVec.and_zero
  · exact BitVec.and_zero

theorem formatXI_masked_low (d : Nibble) (x : Reg) (nn : Byte) :
    formatXI d x nn &&& 0xF0FF = (d ++ (0 : Nibble)) ++ nn := by
  unfold formatXI
  rw [show (0xF0FF : Word) = ((0xF : Nibble) ++ (0 : Nibble)) ++ (0xFF : Byte) from rfl, BitVec.and_append, BitVec.and_append]
  congr 2
  · revert d; decide
  · exact BitVec.and_zero
  · exact BitVec.and_allOnes

theorem formatXY_masked (d : Nibble) (x y : Reg) (n : Nibble) : formatXY d x y n &&& 0xF000 = (d ++ (0 : Nibble)) ++ (0 : Byte) := by
  unfold formatXY
  rw [show (0xF000 : Word) = ((0xF : Nibble) ++ (0 : Nibble)) ++ (0 : Byte) from rfl, BitVec.and_append, BitVec.and_append]
  congr 2
  · revert d; decide
  · exact BitVec.and_zero
  · exact BitVec.and_zero

theorem formatXY_masked_low (d : Nibble) (x y : Reg) (n : Nibble) :
    formatXY d x y n &&& 0xF00F = (d ++ (0 : Nibble)) ++ ((0 : Nibble) ++ n) := by
  unfold formatXY
  rw [show (0xF00F : Word) = ((0xF : Nibble) ++ (0 : Nibble)) ++ ((0 : Nibble) ++ (0xF : Nibble)) from rfl, BitVec.and_append,
    BitVec.and_append, BitVec.and_append]
  congr 2
  · revert d; decide
  · exact BitVec.and_zero
  · exact BitVec.and_zero
  · revert n; decide

theorem nop : Statement (.nop) :=
  ⟨by decide, by decide⟩

theorem cls : Statement (.cls) :=
  ⟨by decide, by decide⟩

theorem ret : Statement (.ret) :=
  ⟨by decide, by decide⟩

theorem jp (nnn : Addr) : Statement (.jp nnn) :=
  ⟨by simp only [Instr.row]; decide, formatA_masked 0x1 nnn⟩

theorem call (nnn : Addr) : Statement (.call nnn) :=
  ⟨by simp only [Instr.row]; decide, formatA_masked 0x2 nnn⟩

theorem sei (x : Reg) (nn : Byte) : Statement (.sei x nn) :=
  ⟨by simp only [Instr.row]; decide, formatXI_masked 0x3 x nn⟩

theorem snei (x : Reg) (nn : Byte) : Statement (.snei x nn) :=
  ⟨by simp only [Instr.row]; decide, formatXI_masked 0x4 x nn⟩

theorem ser (x : Reg) (y : Reg) : Statement (.ser x y) :=
  ⟨by simp only [Instr.row]; decide, formatXY_masked_low 0x5 x y 0x0⟩

theorem ldi (x : Reg) (nn : Byte) : Statement (.ldi x nn) :=
  ⟨by simp only [Instr.row]; decide, formatXI_masked 0x6 x nn⟩

theorem addi (x : Reg) (nn : Byte) : Statement (.addi x nn) :=
  ⟨by simp only [Instr.row]; decide, formatXI_masked 0x7 x nn⟩

theorem mov (x : Reg) (y : Reg) : Statement (.mov x y) :=
  ⟨by simp only [Instr.row]; decide, formatXY_masked_low 0x8 x y 0x0⟩

theorem or (x : Reg) (y : Reg) : Statement (.or x y) :=
  ⟨by simp only [Instr.row]; decide, formatXY_masked_low 0x8 x y 0x1⟩

theorem and (x : Reg) (y : Reg) : Statement (.and x y) :=
  ⟨by simp only [Instr.row]; decide, formatXY_masked_low 0x8 x y 0x2⟩

theorem xor (x : Reg) (y : Reg) : Statement (.xor x y) :=
  ⟨by simp only [Instr.row]; decide, formatXY_masked_low 0x8 x y 0x3⟩

theorem add (x : Reg) (y : Reg) : Statement (.add x y) :=
  ⟨by simp only [Instr.row]; decide, formatXY_masked_low 0x8 x y 0x4⟩

theorem sub (x : Reg) (y : Reg) : Statement (.sub x y) :=
  ⟨by simp only [Instr.row]; decide, formatXY_masked_low 0x8 x y 0x5⟩

theorem shr (x : Reg) (y : Reg) : Statement (.shr x y) :=
  ⟨by simp only [Instr.row]; decide, formatXY_masked_low 0x8 x y 0x6⟩

theorem subn (x : Reg) (y : Reg) : Statement (.subn x y) :=
  ⟨by simp only [Instr.row]; decide, formatXY_masked_low 0x8 x y 0x7⟩

theorem shl (x : Reg) (y : Reg) : Statement (.shl x y) :=
  ⟨by simp only [Instr.row]; decide, formatXY_masked_low 0x8 x y 0xE⟩

theorem sner (x : Reg) (y : Reg) : Statement (.sner x y) :=
  ⟨by simp only [Instr.row]; decide, formatXY_masked_low 0x9 x y 0x0⟩

theorem ldidx (nnn : Addr) : Statement (.ldidx nnn) :=
  ⟨by simp only [Instr.row]; decide, formatA_masked 0xA nnn⟩

theorem jpv0 (nnn : Addr) : Statement (.jpv0 nnn) :=
  ⟨by simp only [Instr.row]; decide, formatA_masked 0xB nnn⟩

theorem rnd (x : Reg) (nn : Byte) : Statement (.rnd x nn) :=
  ⟨by simp only [Instr.row]; decide, formatXI_masked 0xC x nn⟩

theorem drw (x : Reg) (y : Reg) (n : Nibble) : Statement (.drw x y n) :=
  ⟨by simp only [Instr.row]; decide, formatXY_masked 0xD x y n⟩

theorem skp (x : Reg) : Statement (.skp x) :=
  ⟨by simp only [Instr.row]; decide, formatXI_masked_low 0xE x 0x9E⟩

theorem sknp (x : Reg) : Statement (.sknp x) :=
  ⟨by simp only [Instr.row]; decide, formatXI_masked_low 0xE x 0xA1⟩

theorem lddt (x : Reg) : Statement (.lddt x) :=
  ⟨by simp only [Instr.row]; decide, formatXI_masked_low 0xF x 0x07⟩

theorem wkey (x : Reg) : Statement (.wkey x) :=
  ⟨by simp only [Instr.row]; decide, formatXI_masked_low 0xF x 0x0A⟩

theorem stdt (x : Reg) : Statement (.stdt x) :=
  ⟨by simp only [Instr.row]; decide, formatXI_masked_low 0xF x 0x15⟩

theorem stst (x : Reg) : Statement (.stst x) :=
  ⟨by simp only [Instr.row]; decide, formatXI_masked_low 0xF x 0x18⟩

theorem addidx (x : Reg) : Statement (.addidx x) :=
  ⟨by simp only [Instr.row]; decide, formatXI_masked_low 0xF x 0x1E⟩

theorem glyph (x : Reg) : Statement (.glyph x) :=
  ⟨by simp only [Instr.row]; decide, formatXI_masked_low 0xF x 0x29⟩

theorem bcd (x : Reg) : Statement (.bcd x) :=
  ⟨by simp only [Instr.row]; decide, formatXI_masked_low 0xF x 0x33⟩

theorem stm (x : Reg) : Statement (.stm x) :=
  ⟨by simp only [Instr.row]; decide, formatXI_masked_low 0xF x 0x55⟩

theorem ldm (x : Reg) : Statement (.ldm x) :=
  ⟨by simp only [Instr.row]; decide, formatXI_masked_low 0xF x 0x65⟩

end Sys2Proof.Laws.EncodingMatchesRow
end

