-- ==== Sys2Proof/Tests/Slice0.lean ====
section
/-! SUPPORT. Tests: ill-formed words, words written out bit by bit, single steps with the results of 95_test_vectors.md (V-...), and
for every statement with hypotheses a state and operands that meet them. -/

namespace Sys2Proof.Tests

open Sys2Proof.Machine
open Host (Outcome)

/-! States to start from -/

/-- The reset state with some registers written. -/
def withRegs (rs : List (Reg × Byte)) : State := rs.foldl (fun s r => s.setReg r.1 r.2) State.reset

/-- Bytes put into memory from an address on. -/
def State.holding (s : State) (a : Nat) (bs : List Byte) : State := s.setMem (s.mem.writeBytes a bs)

/-- A display with the pixels of some indices `x + 64*y` on, as the vectors write it. -/
def lit (ks : List Nat) : Display :=
  ks.foldl (fun d k => d.toggle (column k 0) (row (k / 64) 0)) Display.clear

/-- The indices of the pixels that are on in the view (60_exceptions.md R188). -/
def litIndices (s : State) : List Nat := (s.getDisplay.zipIdx.filter (·.1)).map (·.2)

/-- The state after one step with the word `w` at PC. -/
def after (w : Nat) (s : State) : State := (s.withFetchWord 16 w).afterStep

/-- A fault latch as the vectors write it. -/
def latched (cause : BitVec 3) (pc info : Word) : FaultLatch := ⟨true, cause, pc, info⟩

/-! Ill-formed words: one for each line of 30_encoding.md R88 -/

theorem test_illegal_family_zero : wordLegal 0x0001 = false ∧ wordLegal 0x0ABC = false := by decide
theorem test_illegal_family_five : wordLegal 0x5121 = false := by decide
theorem test_illegal_family_eight : wordLegal 0x8128 = false ∧ wordLegal 0x812F = false := by decide
theorem test_illegal_family_nine : wordLegal 0x9121 = false := by decide
theorem test_illegal_family_e : wordLegal 0xE49F = false := by decide
theorem test_illegal_family_f : wordLegal 0xF000 = false ∧ wordLegal 0xF075 = false := by decide

/-- An instruction is never ill formed; bytes are, by name. -/
theorem test_decode_rejects_by_name :
    decodeBytes [0xE4, 0x9F, 0x00] = .error (.illegalWord 0xE49F) ∧ decodeBytes [0x12] = .error .tooShort := by decide

/-! Words written out bit by bit from the encodings of R86: opcode, X, Y or NN or NNN -/

theorem test_bits_call : decodeWord 0b0010_0010_0000_1010 = some (.call 0x20A) := by decide
theorem test_bits_sner : decodeWord 0b1001_0001_0010_0000 = some (.sner 1 2) := by decide
theorem test_bits_subn : decodeWord 0b1000_0000_0001_0111 = some (.subn 0 1) := by decide
theorem test_bits_ldm : decodeWord 0b1111_0010_0110_0101 = some (.ldm 2) := by decide
theorem test_bits_drw : decodeWord 0b1101_0001_0010_0101 = some (.drw 1 2 5) := by decide
theorem test_bits_sknp : decodeWord 0b1110_0100_1010_0001 = some (.sknp 4) := by decide

/-- R93: the assembler's line. -/
theorem test_assembly_line : (Instr.addi 0 5).assembly = "ADDI V0, 5" ∧ Instr.ret.assembly = "RET" := by decide

/-- The table's question: bytes in memory order. -/
theorem test_table_word : decodeTableWord 16 0x8014 = some (.add 0 1) ∧ decodeTableWord 16 0x8018 = none := by decide

/-! Control flow (V-CF) -/

theorem test_nop : (after 0x0000 State.reset).pc = 0x202 := by decide
theorem test_jp : (after 0x1ABC State.reset).pc = 0xABC := by decide
theorem test_jp_to_itself : after 0x1200 State.reset = State.reset.withFetchWord 16 0x1200 := by decide +kernel
theorem test_call : (after 0x2300 { State.reset with pc := 0x250, sp := 15 }).stack[15] = 0x252 := by decide
theorem test_call_overflow :
    (after 0x2300 { State.reset with sp := 16 }).fault = latched 4 0x200 16 := by decide
theorem test_ret :
    let t := after 0x00EE { State.reset with sp := 16, stack := State.reset.stack.set 15 0xFFE }
    t.pc = 0xFFE ∧ t.sp = 15 := by decide
theorem test_ret_underflow : (after 0x00EE State.reset).fault = latched 5 0x200 0 := by decide
theorem test_jpv0_does_not_wrap : (after 0xBFFF (withRegs [(0, 0xFF)])).pc = 0x10FE := by decide

/-! Skips (V-SK) -/

theorem test_sei_taken : (after 0x3A42 (withRegs [(0xA, 0x42)])).pc = 0x204 := by decide
theorem test_sei_at_the_end : (after 0x3000 { State.reset with pc := 0xFFE }).pc = 0x1002 := by decide
theorem test_snei_not_taken : (after 0x4A42 (withRegs [(0xA, 0x42)])).pc = 0x202 := by decide
theorem test_ser_not_taken : (after 0x5120 (withRegs [(1, 7), (2, 8)])).pc = 0x202 := by decide
theorem test_sner_taken : (after 0x9120 (withRegs [(1, 7), (2, 8)])).pc = 0x204 := by decide

/-! Arithmetic (V-ALU): register 15 is VF -/

theorem test_ldi : (after 0x6FAB State.reset).reg 15 = 0xAB := by decide
theorem test_addi_keeps_flag :
    let t := after 0x7002 (withRegs [(0, 0xFF), (15, 1)])
    t.reg 0 = 1 ∧ t.reg 15 = 1 := by decide
theorem test_addi_to_flag : (after 0x7F02 (withRegs [(15, 0xFF)])).reg 15 = 1 := by decide
theorem test_mov : (after 0x8120 (withRegs [(2, 0x9C)])).reg 1 = 0x9C := by decide
theorem test_or : (after 0x8121 (withRegs [(1, 0xF0), (2, 0x0F)])).reg 1 = 0xFF := by decide
theorem test_and_keeps_flag :
    let t := after 0x8122 (withRegs [(1, 0xF0), (2, 0x3C), (15, 1)])
    t.reg 1 = 0x30 ∧ t.reg 15 = 1 := by decide
theorem test_xor : (after 0x8123 (withRegs [(1, 0xF0), (2, 0x3C)])).reg 1 = 0xCC := by decide
theorem test_add_carries :
    let t := after 0x8014 (withRegs [(0, 0xFF), (1, 1)])
    t.reg 0 = 0 ∧ t.reg 15 = 1 := by decide
theorem test_add_to_flag : (after 0x8F14 (withRegs [(15, 3), (1, 2)])).reg 15 = 0 := by decide
theorem test_sub_borrows :
    let t := after 0x8015 (withRegs [(0, 1), (1, 2), (15, 1)])
    t.reg 0 = 0xFF ∧ t.reg 15 = 0 := by decide
theorem test_sub_equal :
    let t := after 0x8015 (withRegs [(0, 7), (1, 7)])
    t.reg 0 = 0 ∧ t.reg 15 = 1 := by decide
theorem test_subn :
    let t := after 0x8017 (withRegs [(0, 2), (1, 5)])
    t.reg 0 = 3 ∧ t.reg 15 = 1 := by decide
theorem test_subn_borrows :
    let t := after 0x8017 (withRegs [(0, 5), (1, 2), (15, 1)])
    t.reg 0 = 0xFD ∧ t.reg 15 = 0 := by decide
theorem test_shr :
    let t := after 0x8126 (withRegs [(1, 5), (2, 0xAA)])
    t.reg 1 = 2 ∧ t.reg 2 = 0xAA ∧ t.reg 15 = 1 := by decide
theorem test_shr_flag : (after 0x8F06 (withRegs [(15, 3)])).reg 15 = 0 := by decide
theorem test_shl :
    let t := after 0x812E (withRegs [(1, 0x81)])
    t.reg 1 = 2 ∧ t.reg 15 = 1 := by decide
theorem test_shl_flag : (after 0x8F0E (withRegs [(15, 0x81)])).reg 15 = 2 := by decide
/-- V-ALU-33: NN = 0 gives 0 for every draw. -/
theorem test_rnd_masks : (after 0xC200 (withRegs [(2, 0x77)])).reg 2 = 0 := BitVec.and_zero

/-! Index and memory (V-IM) -/

theorem test_ldidx : (after 0xA2F0 { State.reset with i := 0xFFFF }).i = 0x2F0 := by decide
theorem test_addidx_passes_4095 : (after 0xF21E { withRegs [(2, 1)] with i := 0xFFF }).i = 0x1000 := by decide
theorem test_addidx_wraps : (after 0xF21E { withRegs [(2, 2)] with i := 0xFFFF }).i = 1 := by decide
theorem test_glyph_is_not_masked : (after 0xF329 (withRegs [(3, 0xFF)])).i = 0x4FB := by decide
theorem test_bcd :
    (after 0xF033 { withRegs [(0, 0xC7)] with i := 0xFFD }).mem.readBytes 0xFFD 3 = [1, 9, 9] := by decide +kernel
theorem test_bcd_out_of_range :
    (after 0xF033 { withRegs [(0, 0xC7)] with i := 0xFFE }).fault = latched 3 0x200 0x1000 := by decide
theorem test_stm :
    (after 0xF255 { withRegs [(0, 0x11), (1, 0x22), (2, 0x33), (3, 0x44)] with i := 0x400 }).mem.readBytes 0x400 4
      = [0x11, 0x22, 0x33, 0] := by decide +kernel
theorem test_stm_out_of_range :
    (after 0xF255 { State.reset with i := 0xFFE }).mem.readBytes 0xFFE 2 = [0, 0] := by decide +kernel
theorem test_ldm :
    let t := after 0xF265 { State.holding (withRegs [(3, 0x55)]) 0x300 [2, 3, 4, 9] with i := 0x300 }
    t.firstRegs 4 = [2, 3, 4, 0x55] ∧ t.i = 0x300 := by decide +kernel
theorem test_ldm_all : (after 0xFF65 { State.reset with i := 0x200 }).firstRegs 3 = [0xFF, 0x65, 0] := by decide +kernel

/-! Display (V-DS) -/

theorem test_cls :
    let t := after 0x00E0 { withRegs [(15, 1)] with disp := lit [0, 63, 1024, 2047] }
    litIndices t = [] ∧ t.reg 15 = 1 := by decide +kernel
theorem test_drw_wraps :
    litIndices (after 0xD011 { State.holding (withRegs [(0, 0x3F), (1, 0x1F)]) 0x300 [0xFF] with i := 0x300 })
      = [1984, 1985, 1986, 1987, 1988, 1989, 1990, 2047] := by decide +kernel
theorem test_drw_collides :
    let t := after 0xD011 { State.holding State.reset 0x300 [0xC0] with i := 0x300, disp := lit [1] }
    litIndices t = [0] ∧ t.reg 15 = 1 := by decide +kernel

/-! Keypad and timers (V-KT) -/

/-- The reset state with keys held. -/
def holdingKeys (rs : List (Reg × Byte)) (ks : List Nat) : State :=
  ks.foldl (fun s k => s.setKey k true) (withRegs rs)

theorem test_skp_taken : (after 0xE49E (holdingKeys [(4, 0x0A)] [10])).pc = 0x204 := by decide
theorem test_skp_key_sixteen : (after 0xE49E (holdingKeys [(4, 0x10)] [0])).fault = latched 6 0x200 0x10 := by decide
theorem test_sknp_taken : (after 0xE4A1 (withRegs [(4, 0x0A)])).pc = 0x204 := by decide
theorem test_lddt : (after 0xF507 { State.reset with dt := 44 }).reg 5 = 0x2C := by decide
theorem test_wkey_lowest : (after 0xF30A (holdingKeys [(3, 0x77)] [2, 7])).reg 3 = 2 := by decide
theorem test_wkey_waits :
    after 0xF30A (withRegs [(3, 0x77)]) = (withRegs [(3, 0x77)]).withFetchWord 16 0xF30A := by decide +kernel
theorem test_stdt : (after 0xF515 (withRegs [(5, 0x3C)])).dt = 60 := by decide
theorem test_stst : (after 0xF518 (withRegs [(5, 5)])).soundActive = true := by decide

/-! Fetch and decode faults, ticks, load (V-FT, V-TK, V-RL) -/

theorem test_illegal_word_faults : (after 0x0ABC State.reset).fault = latched 1 0x200 0xABC := by decide
theorem test_fetch_at_4095 : ({ State.reset with pc := 0xFFF } : State).afterStep.fault = latched 2 0xFFF 0xFFF := by
  decide
theorem test_tick : ({ State.reset with dt := 2, st := 1 } : State).tickTimers.st = 0 := by decide
theorem test_tick_floor : State.reset.tickTimers = State.reset := by decide +kernel
/-- V-TK-2 as an infinite schedule of ticks: the one event is that of operation 0. -/
theorem test_infinite_ticks :
    let s : State := { State.reset with dt := 2, st := 1 }
    (stateAt s (fun _ => .tickTimers) 2).dt = 0 ∧ responseAt s (fun _ => .tickTimers) 0 = .ticked true ∧
      responseAt s (fun _ => .tickTimers) 1 = .ticked false := by decide
theorem test_load : (State.reset.load [0x60, 0x05, 0x70, 0x05]).1.mem
    = [(0x200, 0x60), (0x201, 0x05), (0x202, 0x70), (0x203, 0x05)] := by decide

/-! Witnesses: for each statement with hypotheses, values that meet all of them together, for a statement with clauses at the edge
of each clause's range -/

/-- A running state with a word at PC. -/
def placed (w : Nat) (s : State) : State := s.withFetchWord 16 w

theorem witness_DecodeThenEncodeGivesWord : decodeWord 0xDFFF = some (.drw 0xF 0xF 0xF) := by decide

theorem witness_DecoderFollowsOpcodeTable :
    (⟨"LDM", 0xF065, 0xF0FF⟩ : OpcodeRow) ∈ opcodeTable ∧ (0xFF65 : Word) &&& 0xF0FF = 0xF065 ∧
      decodeWord 0xFF65 = some (.ldm 0xF) ∧ (Instr.ldm 0xF).row = ⟨"LDM", 0xF065, 0xF0FF⟩ := by decide

/-- The neighbours of the legal words in each line of R88. -/
theorem witness_IllegalWordsAreExactlyTheListed :
    decodeWord 0x00ED = none ∧ decodeWord 0x5FF1 = none ∧ decodeWord 0x800D = none ∧ decodeWord 0x9001 = none ∧
      decodeWord 0xE0A0 = none ∧ decodeWord 0xF066 = none ∧ decodeWord 0x00EE = some .ret := by decide

theorem witness_StepRunsTheDecodedInstruction :
    let s := placed 0x6A01 { State.reset with pc := 0xFFE }
    s.running ∧ s.pc.toNat ≤ 4094 ∧
      decodeWord (s.mem.read s.pc.toNat ++ s.mem.read (s.pc.toNat + 1)) = some (.ldi 0xA 1) := by decide

theorem witness_IllegalWordFaults :
    let s := placed 0xFFFF { State.reset with pc := 0xFFE }
    s.running ∧ s.pc.toNat ≤ 4094 ∧ (0xFFFF : Word) = s.mem.read s.pc.toNat ++ s.mem.read (s.pc.toNat + 1) ∧
      wordLegal 0xFFFF = false := by decide

theorem witness_FetchBeyondMemoryFaults :
    let s := { State.reset with pc := 0xFFF }
    s.running ∧ 4094 < s.pc.toNat := by decide

theorem witness_FaultedStateIsAbsorbing :
    (State.reset.enterFault .stackOverflow).fault.valid = true ∧ Operation.step ≠ .reset ∧
      Operation.step ≠ .construct := by decide

theorem witness_FaultsArePrecise :
    let s := { State.reset with pc := 0xFFF }
    s.running ∧ step s = .next (s.enterFault (.fetchOutOfRange 0xFFF)) ∧
      ¬ (s.enterFault (.fetchOutOfRange 0xFFF)).running := ⟨rfl, rfl, by decide⟩

/-- One for each of the four causes. -/
theorem witness_OnlyEightInstructionsFault :
    let full := { State.reset with sp := 16 }
    let high := { State.reset with i := 0xFFFF }
    let key := withRegs [(0, 16)]
    (full.running ∧ exec (.call 0) full = .next (full.enterFault .stackOverflow)) ∧
    (State.reset.running ∧ exec .ret State.reset = .next (State.reset.enterFault .stackUnderflow)) ∧
    (high.running ∧ exec (.ldm 0) high = .next (high.enterFault (.memoryOutOfRange 65535))) ∧
    (key.running ∧ exec (.skp 0) key = .next (key.enterFault (.keyIndexOutOfRange 16))) :=
  ⟨⟨rfl, rfl⟩, ⟨rfl, rfl⟩, ⟨rfl, rfl⟩, ⟨rfl, rfl⟩⟩

/-- A running and a faulted state that meet the invariant, with PC and a slot at their bounds and memory that lists a byte. -/
theorem witness_Inv :
    let s := State.holding { State.reset with pc := 4350, stack := State.reset.stack.set 15 4096 } 4095 [7]
    s.Inv ∧ (s.enterFault (.fetchOutOfRange 4350)).Inv := by
  have h : ∀ k : Fin 16, ((State.reset.stack.set 15 4096)[k]).toNat ≤ 4096 := by decide
  exact ⟨{ memWf := by decide, pcBound := by decide, slotBound := h, latch := ⟨fun _ => rfl, fun h => Bool.noConfusion h⟩ },
    { memWf := by decide, pcBound := by decide, slotBound := h,
      latch := ⟨fun h => Bool.noConfusion h, fun _ => ⟨by decide, by decide, rfl⟩⟩ }⟩

theorem witness_StepKeepsTheInvariant :
    let s := State.holding { State.reset with pc := 4350, stack := State.reset.stack.set 15 4096 } 4095 [7]
    s.Inv ∧ step s = .next (s.enterFault (.fetchOutOfRange 4350)) := ⟨witness_Inv.1, rfl⟩

theorem witness_EveryExecutionKeepsTheInvariant :
    (State.holding { State.reset with pc := 4350, stack := State.reset.stack.set 15 4096 } 4095 [7]).Inv := witness_Inv.1

/-- V-IM-20, and the last address at which two registers fit. -/
theorem witness_StoredInstructionIsFetchedNext :
    let s := placed 0xF155 { State.reset with pc := 0xFFC, i := 0xFFE }
    s.running ∧ decodeWord (s.mem.read s.pc.toNat ++ s.mem.read (s.pc.toNat + 1)) = some (.stm 1) ∧
      1 ≤ (1 : Reg).toNat ∧ s.i.toNat = s.pc.toNat + 2 ∧ s.i.toNat + (1 : Reg).toNat ≤ 4095 := by decide

theorem witness_OnlyCallAndRetWriteTheStack :
    (∃ t, exec .nop State.reset = .next t) ∧ (∀ nnn, Instr.nop ≠ .call nnn) ∧ Instr.nop ≠ .ret :=
  ⟨⟨_, rfl⟩, fun _ h => Instr.noConfusion h, by decide⟩

theorem witness_OnlyBcdAndStmWriteMemory :
    (∃ t, exec (.ldi 0 1) State.reset = .next t) ∧ ∀ x, Instr.ldi 0 1 ≠ .bcd x ∧ Instr.ldi 0 1 ≠ .stm x :=
  ⟨⟨_, rfl⟩, fun _ => ⟨fun h => Instr.noConfusion h, fun h => Instr.noConfusion h⟩⟩

/-- Meets the premise of every clause. -/
theorem witness_EachDeviceHasOnlyItsWriters :
    (∃ t, exec .nop State.reset = .next t) ∧ (∀ x, Instr.nop ≠ .stdt x) ∧ (∀ x, Instr.nop ≠ .stst x) ∧
      Instr.nop ≠ .cls ∧ (∀ x y n, Instr.nop ≠ .drw x y n) ∧ (∀ nnn, Instr.nop ≠ .ldidx nnn) ∧
      ∀ x, Instr.nop ≠ .addidx x ∧ Instr.nop ≠ .glyph x :=
  ⟨⟨_, rfl⟩, fun _ h => Instr.noConfusion h, fun _ h => Instr.noConfusion h, by decide, fun _ _ _ h => Instr.noConfusion h,
    fun _ h => Instr.noConfusion h, fun _ => ⟨fun h => Instr.noConfusion h, fun h => Instr.noConfusion h⟩⟩

theorem witness_OnlyDestinationRegistersAreWritten : ∃ t, exec (.add 0xF 1) State.reset = .next t := ⟨_, rfl⟩

theorem witness_CallPushesAndJumps : ({ State.reset with sp := 15 } : State).sp.val < 16 := by decide

theorem witness_RetPopsIntoPc :
    (({ State.reset with sp := 1 } : State).sp.val = 0 + 1 ∧ 0 < 16) ∧
      (({ State.reset with sp := 16 } : State).sp.val = 15 + 1 ∧ 15 < 16) := by decide

theorem witness_StackLimitsFault :
    ({ State.reset with sp := 16 } : State).sp.val = 16 ∧ State.reset.sp.val = 0 := by decide

theorem witness_CallThenRetReturns : ({ State.reset with sp := 15 } : State).sp.val < 16 := by decide

theorem witness_SelfJumpIsAFixedPoint :
    let s := placed 0x1FFE { State.reset with pc := 0xFFE }
    s.running ∧ s.pc.toNat ≤ 4094 ∧ s.mem.read s.pc.toNat ++ s.mem.read (s.pc.toNat + 1) = formatA 0x1 0xFFE ∧
      (0xFFE : Addr).toNat = s.pc.toNat := by decide

/-- A destination other than VF, for the clauses that give the result and the flag apart (ADD, SUB, SUBN, SHR, SHL), and VF itself
for the others. -/
theorem witness_destination_is_not_and_is_flag : (0xE : Reg) ≠ vf ∧ (0xF : Reg) = vf := by decide

theorem witness_BcdWritesThreeDigits : ({ State.reset with i := 0xFFD } : State).i.toNat + 2 ≤ 4095 := by decide

theorem witness_StmStoresTheFirstRegisters :
    ({ State.reset with i := 0xFF0 } : State).i.toNat + (0xF : Reg).toNat ≤ 4095 := by decide

theorem witness_LdmLoadsTheFirstRegisters :
    ({ State.reset with i := 0xFFF } : State).i.toNat + (0 : Reg).toNat ≤ 4095 := by decide

/-- One byte too many for each instruction, and the highest `I`. -/
theorem witness_MemoryRangeFaultsBeforeAnyEffect :
    4095 < ({ State.reset with i := 0xFFE } : State).i.toNat + 2 ∧
    4095 < ({ State.reset with i := 0xFFF } : State).i.toNat + (1 : Reg).toNat ∧
    (0 < (2 : Nibble).toNat ∧ 4095 < ({ State.reset with i := 0xFFF } : State).i.toNat + (2 : Nibble).toNat - 1) ∧
    4095 < ({ State.reset with i := 0xFFFF } : State).i.toNat + (0 : Reg).toNat := by decide

/-- V-DS-13 with the pixel of its one set bit on: no rows with any `I`, the last byte of memory as the only row, a covered pixel,
and one that is not. -/
theorem witness_DrwXorsTheSprite :
    let s := { State.holding State.reset 0xFFF [1] with i := 0xFFF, disp := lit [7] }
    (0 : Nibble).toNat = 0 ∧ s.i.toNat + (1 : Nibble).toNat - 1 ≤ 4095 ∧ SpriteCovers s 0 0 1 7 0 ∧
      s.disp.pixel 7 0 = true ∧ ¬ SpriteCovers s 0 0 1 8 0 := by
  refine ⟨rfl, by decide, ⟨0, 7, by decide, by decide, by decide, by decide, by decide⟩, by decide +kernel, ?_⟩
  rintro ⟨r, c, hr, hc, _, hx, _⟩
  have h0 : ∀ c : Fin 8, (8 : Nat) ≠ (0 + c.val) % 64 := by decide
  exact h0 ⟨c, hc⟩ hx

/-- The same sprite on a clear display: no covered pixel is on. -/
theorem witness_DrwXorsTheSprite_without_collision :
    let s := { State.holding State.reset 0xFFF [1] with i := 0xFFF }
    s.i.toNat + (1 : Nibble).toNat - 1 ≤ 4095 ∧ ¬ ∃ px py, SpriteCovers s 0 0 1 px py ∧ s.disp.pixel px py = true := by
  refine ⟨by decide, ?_⟩
  rintro ⟨px, py, _, h⟩
  have : (Display.clear).pixel px py = true := h
  simp at this

theorem witness_DrawingTwiceRestoresTheDisplay :
    (0 : Reg) ≠ vf ∧ (1 : Reg) ≠ vf ∧
      ({ State.reset with i := 0xFF1 } : State).i.toNat + (0xF : Nibble).toNat - 1 ≤ 4095 := by decide

theorem witness_KeySkipsTestTheLatch : ((withRegs [(4, 15)]).reg 4).toNat < 16 := by decide

theorem witness_KeyIndexAboveFifteenFaults : 15 < ((withRegs [(4, 16)]).reg 4).toNat := by decide

/-- A least key that is not key 0, the highest key alone, and no key. -/
theorem witness_WkeyTakesTheLeastKeyOrWaits :
    let s := holdingKeys [] [2, 7]
    let t := holdingKeys [] [15]
    (s.key[(2 : Fin 16)] = true ∧ ∀ j : Fin 16, j < 2 → s.key[j] = false) ∧
    (t.key[(15 : Fin 16)] = true ∧ ∀ j : Fin 16, j < 15 → t.key[j] = false) ∧
    ∀ k : Fin 16, State.reset.key[k] = false := by decide

theorem witness_TickLowersBothTimers : ({ State.reset with dt := 255, st := 1 } : State).running := by decide

/-- V-TK-7 in short: steps and ticks interleaved, to the floor and below it. -/
theorem witness_DelayTimerCountsTheTicks :
    delayUndisturbed { State.reset with dt := 1 }
      [.step, .tickTimers, .setKey 3 true, .load [0x12, 0x00], .step, .tickTimers, .getDisplay] := by
  simp only [delayUndisturbed]
  decide +kernel

/-- Nothing but ticks, for ever: a machine that runs, and a tick after every point. -/
theorem witness_DelayTimerCountsTheTicks_for_ever :
    (∀ n, delayUndisturbed { State.reset with dt := 1 } (Schedule.take (fun _ => .tickTimers) n)) ∧
      Schedule.Recurs (fun _ => .tickTimers) .tickTimers := by
  have all : ∀ (ops : List Operation) (s : State), s.running → (∀ op ∈ ops, op = .tickTimers) → delayUndisturbed s ops := by
    intro ops
    induction ops with
    | nil => exact fun _ _ _ => trivial
    | cons op ops ih =>
      intro s hs h
      obtain rfl := h op List.mem_cons_self
      refine ⟨hs, by decide, by decide, fun h => Operation.noConfusion h, ih _ ?_ fun op h' => h op (List.mem_cons_of_mem _ h')⟩
      simp only [Operation.apply, State.tickTimers_running s hs]
      exact hs
  exact ⟨fun n => all _ _ rfl (by simp [Schedule.take]), fun n => ⟨n, Nat.le_refl n, rfl⟩⟩

theorem witness_ResetSetsEveryElement :
    State.construct = State.construct ∧
      ({ State.reset with sp := 16 } : State).hostReset = ({ State.reset with sp := 16 } : State).hostReset := ⟨rfl, rfl⟩

theorem witness_SetKeyWritesOneLatch : State.reset.running ∧ 15 < 16 := by decide

theorem witness_LoadCopiesOrRejects :
    (State.reset.running ∧ (List.replicate 3584 (0xFF : Byte)).length ≤ 3584) ∧
    ¬ (State.reset.enterFault .stackOverflow).running ∧ 3584 < (List.replicate 3585 (0xFF : Byte)).length :=
  ⟨⟨rfl, by rw [List.length_replicate]⟩, by decide, by rw [List.length_replicate]; decide⟩

theorem witness_FirstStepRunsTheLoadedProgram : (List.replicate 3582 (0 : Byte)).length ≤ 3582 := by
  rw [List.length_replicate]

end Sys2Proof.Tests
end

section
/-! PROOFS. What an instruction can do, said once (`Effect`, `effect_of_exec`), and the statements about the whole instruction set
and about executions that follow from it. -/

namespace Sys2Proof.Machine

open Host (Outcome)

/-! Quiet updates: what every instruction does but CALL, RET, BCD and STM -/

/-- Memory, the call stack, the fault latch and the registers outside `xs` are as they were, and PC comes from a fetch address
to one within the bound of 10_state.md R26. Memory is kept as data, not only as it reads. -/
structure Quiet (s t : State) (xs : List Reg) : Prop where
  regs : KeepsRegs s t xs
  mem : t.mem = s.mem
  stack : KeepsStack s t
  fault : t.fault = s.fault
  pcBound : s.pc.toNat ≤ 4094 → t.pc.toNat ≤ 4350

/-- A word two further on, wrapped or not, is at most two higher. -/
theorem toNat_add_two_le (w : Word) : (w + 2).toNat ≤ w.toNat + 2 := by
  rw [BitVec.toNat_add]
  exact Nat.mod_le _ _

theorem quiet_advance (s : State) (xs : List Reg) : Quiet s s.advance xs where
  regs _ _ := rfl
  mem := rfl
  stack := ⟨rfl, rfl⟩
  fault := rfl
  pcBound h := (toNat_add_two_le s.pc).trans (by omega)

theorem quiet_skipIf (s : State) (c : Bool) (xs : List Reg) : Quiet s (s.advance.skipIf c) xs where
  regs _ _ := by simp
  mem := by simp
  stack := ⟨by simp, by simp⟩
  fault := by simp
  pcBound h := by
    have h1 := toNat_add_two_le s.pc
    have h2 := toNat_add_two_le (s.pc + 2)
    rw [State.skipIf_pc, State.advance_pc]
    split <;> omega

section
variable {s t : State} {xs : List Reg}

theorem Quiet.jump (h : Quiet s t xs) {w : Word} (hw : s.pc.toNat ≤ 4094 → w.toNat ≤ 4350) : Quiet s (t.jump w) xs :=
  { h with pcBound := hw }

theorem Quiet.setReg (h : Quiet s t xs) {x : Reg} (hx : x ∈ xs) (b : Byte) : Quiet s (t.setReg x b) xs :=
  { h with regs := fun r hr => (State.setReg_reg_other t x b r fun hrx => hr (hrx ▸ hx)).trans (h.regs r hr) }

theorem Quiet.setFlag (h : Quiet s t xs) (hx : vf ∈ xs) (c : Bool) : Quiet s (t.setFlag c) xs := h.setReg hx _

theorem Quiet.setIndex (h : Quiet s t xs) (w : Word) : Quiet s (t.setIndex w) xs := { h with }

theorem Quiet.setDisp (h : Quiet s t xs) (d : Display) : Quiet s (t.setDisp d) xs := { h with }

theorem Quiet.setDt (h : Quiet s t xs) (b : Byte) : Quiet s (t.setDt b) xs := { h with }

theorem Quiet.setSt (h : Quiet s t xs) (b : Byte) : Quiet s (t.setSt b) xs := { h with }

theorem Quiet.drawRand (h : Quiet s t xs) : Quiet s t.drawRand.2 xs := { h with }

end

/-- LDM writes `V[0]` to `V[X]` (43_index_memory.md R145). -/
theorem quiet_loaded (s : State) (x : Reg) :
    Quiet s (s.advance.setRegsFrom 0 (s.mem.readBytes (s.ea 0) (x.toNat + 1))) (destRegs (.ldm x)) where
  regs r hr := by rw [State.reg_loaded, if_neg (mt (mem_destRegs_ldm x r).mpr hr)]
  mem := by simp
  stack := ⟨by simp, by simp⟩
  fault := by simp
  pcBound h := by rw [State.setRegsFrom_pc]; exact (quiet_advance s []).pcBound h

/-- An absolute target is below 4096. -/
theorem absolute_bound (nnn : Addr) : (absolute nnn).toNat ≤ 4095 := by
  have := nnn.isLt
  simp only [absolute, zext16, BitVec.toNat_setWidth]
  omega

/-- An indexed target is at most 255 + 4095 (40_control_flow.md R104). -/
theorem State.indexedTarget_bound (s : State) (nnn : Addr) : (s.indexedTarget nnn).toNat ≤ 4350 := by
  have := nnn.isLt
  have := (s.reg 0).isLt
  simp only [State.indexedTarget, zext16, BitVec.toNat_add, BitVec.toNat_setWidth]
  omega

/-! What executing an instruction can do -/

/-- All that executing an instruction in `s` can leave: a taken fault; a quiet update of its destination registers; a pushed
return address and a jump, by CALL; a popped one jumped to, by RET; bytes at `I` inside memory, by BCD and STM. -/
inductive Effect (s : State) : Instr → State → Prop
  | fault {i : Instr} (f : Fault) : Effect s i (s.enterFault f)
  | quiet {i : Instr} {t : State} (h : Quiet s t (destRegs i)) : Effect s i t
  | call (nnn : Addr) (h : s.sp.val < 16) :
      Effect s (.call nnn)
        (State.jump { s with stack := s.stack.set s.sp.val (s.pc + 2) h, sp := ⟨s.sp.val + 1, Nat.succ_lt_succ h⟩ }
          (absolute nnn))
  | ret (k : Nat) (hk : k < 16) (h : s.sp.val = k + 1) :
      Effect s .ret (State.jump { s with sp := ⟨k, Nat.lt_succ_of_lt hk⟩ } s.stack[k])
  | store {i : Instr} (bs : List Byte) (hi : ∃ x, i = .bcd x ∨ i = .stm x)
      (hbs : s.ea 0 + bs.length ≤ Config.memSize) :
      Effect s i (s.advance.setMem (s.mem.writeBytes (s.ea 0) bs))

section
variable {i : Instr} {s t u : State}

/-- A step that ends in a quiet update. -/
theorem Effect.of_ok (hu : Quiet s u (destRegs i)) (h : complete s (.ok u) = .next t) : Effect s i t := by
  cases h
  exact .quiet hu

/-- A step with a range check before a quiet update. -/
theorem Effect.of_guarded {c : Option Fault} (hu : Quiet s u (destRegs i))
    (h : complete s (guarded c u) = .next t) : Effect s i t := by
  obtain ⟨-, rfl⟩ | ⟨f, -, rfl⟩ := complete_guarded h
  · exact .quiet hu
  · exact .fault f

/-- A step whose quiet update needs a value that may be a fault. -/
theorem Effect.of_map {α : Type} {r : Except Fault α} {g : α → State} (hg : ∀ a, Quiet s (g a) (destRegs i))
    (h : complete s (r.map g) = .next t) : Effect s i t := by
  cases r with
  | error f => cases h; exact .fault f
  | ok a => cases h; exact .quiet (hg a)

/-- A step that stores bytes at `I` behind their range check. -/
theorem Effect.of_store {bs : List Byte} {n : Nat} (hn : bs.length = n) (hpos : 0 < n)
    (hi : ∃ x, i = .bcd x ∨ i = .stm x)
    (h : complete s (guarded (rangeFault (s.ea 0) n) (s.advance.setMem (s.mem.writeBytes (s.ea 0) bs))) = .next t) :
    Effect s i t := by
  obtain ⟨hr, rfl⟩ | ⟨f, -, rfl⟩ := complete_guarded h
  · obtain ⟨hin, -⟩ | ⟨-, -, hf⟩ := rangeFault_cases (s.ea 0) n
    · exact .store bs hi (by simp only [Config.memSize]; omega)
    · rw [hf] at hr; cases hr
  · exact .fault f

/-- CALL pushes, or finds the stack full (40_control_flow.md R103, R174). -/
theorem effect_of_exec_call {nnn : Addr} (h : exec (.call nnn) s = .next t) : Effect s (.call nnn) t := by
  by_cases hsp : s.sp.val < 16
  · rw [execCall_eq s nnn (State.push_ok s.advance _ hsp)] at h
    cases h
    exact .call nnn hsp
  · rw [execCall_eq s nnn (State.push_full s.advance _ (by simp only [State.advance_sp]; omega))] at h
    cases h
    exact .fault _

/-- RET pops, or finds the stack empty (R101, R175). -/
theorem effect_of_exec_ret (h : exec .ret s = .next t) : Effect s .ret t := by
  by_cases hsp : s.sp.val = 0
  · rw [execRet_eq s (State.pop_empty s.advance hsp)] at h
    cases h
    exact .fault _
  · obtain ⟨k, hk⟩ := Nat.exists_eq_succ_of_ne_zero hsp
    have hk16 : k < 16 := by omega
    rw [execRet_eq s (State.pop_ok s.advance k hk hk16)] at h
    cases h
    exact .ret k hk16 hk

/-- WKEY takes the least pressed key, or goes back to its own address (45_keypad_timers.md R163). -/
theorem effect_of_exec_wkey {x : Reg} (h : exec (.wkey x) s = .next t) : Effect s (.wkey x) t := by
  have q := quiet_advance s [x]
  change execWkey x s = .next t at h
  unfold execWkey at h
  split at h
  · exact .of_ok (q.setReg (by simp) _) h
  · refine .of_ok (q.jump fun hpc => ?_) h
    rw [State.advance_pc, BitVec.add_sub_cancel]
    omega

/-- Executing an instruction has one of its effects: the inversion of `exec`. -/
theorem effect_of_exec (h : exec i s = .next t) : Effect s i t := by
  have q := quiet_advance s (destRegs i)
  cases i with
  | nop => exact .of_ok q h
  | cls => exact .of_ok (q.setDisp _) h
  | ret => exact effect_of_exec_ret h
  | jp nnn => exact .of_ok (q.jump fun _ => (absolute_bound nnn).trans (by decide)) h
  | call nnn => exact effect_of_exec_call h
  | sei x nn | snei x nn => exact .of_ok (quiet_skipIf s _ _) h
  | ser x y | sner x y => exact .of_ok (quiet_skipIf s _ _) h
  | ldi x nn | addi x nn => exact .of_ok (q.setReg (by simp [destRegs]) _) h
  | mov x y | or x y | and x y | xor x y => exact .of_ok (q.setReg (by simp [destRegs]) _) h
  | add x y | sub x y | subn x y =>
    exact .of_ok ((q.setReg (by simp [destRegs]) _).setFlag (by simp [destRegs]) _) h
  | shr x y | shl x y => exact .of_ok ((q.setFlag (by simp [destRegs]) _).setReg (by simp [destRegs]) _) h
  | ldidx nnn => exact .of_ok (q.setIndex _) h
  | jpv0 nnn => exact .of_ok (q.jump fun _ => s.indexedTarget_bound nnn) h
  | rnd x nn => exact .of_ok (q.drawRand.setReg (by simp [destRegs]) _) h
  | drw x y n => exact .of_guarded ((q.setDisp _).setFlag (by simp [destRegs]) _) h
  | skp x | sknp x => exact .of_map (fun _ => quiet_skipIf s _ _) h
  | lddt x => exact .of_ok (q.setReg (by simp [destRegs]) _) h
  | wkey x => exact effect_of_exec_wkey h
  | stdt x => exact .of_ok (q.setDt _) h
  | stst x => exact .of_ok (q.setSt _) h
  | addidx x | glyph x => exact .of_ok (q.setIndex _) h
  | bcd x => exact .of_store (bs := bcdDigits (s.reg x)) rfl (Nat.succ_pos 2) ⟨x, .inl rfl⟩ h
  | stm x => exact .of_store (s.firstRegs_length x) (Nat.succ_pos _) ⟨x, .inr rfl⟩ h
  | ldm x => exact .of_guarded (quiet_loaded s x) h

end

/-! Every step answers -/

theorem complete_answers (s : State) (r : Except Fault State) : ∃ t, complete s r = .next t := by
  cases r with
  | ok t => exact ⟨t, rfl⟩
  | error f => exact ⟨s.enterFault f, rfl⟩

/-- Every instruction answers a next state: the eight of R180 that can fault complete with what they leave or with the fault
taken, the others never fault. -/
theorem exec_answers (i : Instr) (s : State) : ∃ t, exec i s = .next t := by
  cases i with
  | ret | call | drw | skp | sknp | bcd | stm | ldm => exact complete_answers s _
  | wkey x =>
    change ∃ t, execWkey x s = .next t
    unfold execWkey
    split <;> exact complete_answers s _
  | _ => exact ⟨_, rfl⟩

/-- Settles O12: of the cases of a step only the decoded instruction is not a next state by itself, and `exec` always answers. -/
theorem everyStepAnswersANextState : Obligations.EveryStepAnswersANextState := by
  intro s
  obtain ⟨-, h⟩ | ⟨-, ⟨-, h⟩ | ⟨w, -, -, ⟨-, h⟩ | ⟨i, -, h⟩⟩⟩ := step_cases s
  · exact ⟨_, h⟩
  · exact ⟨_, h⟩
  · exact ⟨_, h⟩
  · rw [h]
    exact exec_answers i s

/-- The state after a step is the one the step answers. -/
theorem State.step_eq_afterStep (s : State) : step s = .next s.afterStep := by
  obtain ⟨t, h⟩ := everyStepAnswersANextState s
  simp only [State.afterStep, h]

/-! What an instruction leaves alone -/

/-- Settles O20: of the effects only a store at `I` touches memory, and it is BCD's or STM's. -/
theorem onlyBcdAndStmWriteMemory : Obligations.OnlyBcdAndStmWriteMemory := by
  intro i s t h hi a
  cases effect_of_exec h with
  | fault | call | ret => rfl
  | quiet hq => rw [hq.mem]
  | store bs hst =>
    obtain ⟨x, hx⟩ := hst
    obtain ⟨hbcd, hstm⟩ := hi x
    exact absurd hx (not_or.mpr ⟨hbcd, hstm⟩)

/-- Settles O22: a quiet update keeps the registers outside the destinations, and the other effects touch no register. -/
theorem onlyDestinationRegistersAreWritten : Obligations.OnlyDestinationRegistersAreWritten := by
  intro i s t h r hr
  cases effect_of_exec h with
  | fault | call | ret | store => rfl
  | quiet hq => exact hq.regs r hr

/-! The invariant -/

section
variable {s t : State}

theorem State.latchOk_of_clear (h : s.fault = ⟨false, 0, 0, 0⟩) : s.latchOk :=
  ⟨fun _ => h, fun hv => by simp [h] at hv⟩

/-- A running state with the invariant has the clear latch. -/
theorem State.Inv.fault_clear (hs : s.Inv) (hrun : s.running) : s.fault = ⟨false, 0, 0, 0⟩ := hs.latch.1 hrun

theorem State.Inv.enterFault (hs : s.Inv) (f : Fault) : (s.enterFault f).Inv where
  memWf := hs.memWf
  pcBound := hs.pcBound
  slotBound := hs.slotBound
  latch := ⟨fun hv => by simp at hv, fun _ => ⟨f.code_bounds.1, f.code_bounds.2, rfl⟩⟩

/-- Every effect of an instruction that a running machine fetched keeps the invariant. -/
theorem Effect.keeps_inv {i : Instr} (he : Effect s i t) (hs : s.Inv) (hrun : s.running) (hpc : s.pc.toNat ≤ 4094) :
    t.Inv := by
  have hclear := hs.fault_clear hrun
  cases he with
  | fault f => exact hs.enterFault f
  | quiet hq =>
    exact ⟨hq.mem ▸ hs.memWf, hq.pcBound hpc, hq.stack.2 ▸ hs.slotBound, State.latchOk_of_clear (hq.fault.trans hclear)⟩
  | call nnn hsp =>
    refine ⟨hs.memWf, (absolute_bound nnn).trans (by decide), fun k => ?_, State.latchOk_of_clear hclear⟩
    have hret : (s.pc + 2).toNat ≤ 4096 := (toNat_add_two_le s.pc).trans (by omega)
    simp only [State.jump_stack, Fin.getElem_fin, Vector.getElem_set]
    split
    · exact hret
    · exact hs.slotBound k
  | ret k hk =>
    exact ⟨hs.memWf, (hs.slotBound ⟨k, hk⟩).trans (by omega), hs.slotBound, State.latchOk_of_clear hclear⟩
  | store bs hi hbs =>
    exact ⟨Memory.wf_writeBytes bs hbs hs.memWf, (quiet_advance s []).pcBound hpc, hs.slotBound,
      State.latchOk_of_clear hclear⟩

/-- One step keeps the invariant. -/
theorem State.Inv.of_step (hs : s.Inv) (h : step s = .next t) : t.Inv := by
  obtain ⟨-, h'⟩ | ⟨hrun, ⟨-, h'⟩ | ⟨w, hpc, -, ⟨-, h'⟩ | ⟨i, -, h'⟩⟩⟩ := step_cases s <;> rw [h'] at h
  · cases h; exact hs
  · cases h; exact hs.enterFault _
  · cases h; exact hs.enterFault _
  · exact (effect_of_exec h).keeps_inv hs hrun hpc

theorem State.hostReset_inv (s : State) : s.hostReset.Inv where
  memWf := Memory.wf_nil
  pcBound := (by decide : (512 : Word).toNat ≤ 4350)
  slotBound k := by simp [State.hostReset_eq, State.reset]
  latch := State.latchOk_of_clear rfl

theorem State.Inv.load (hs : s.Inv) (bytes : List Byte) : (s.load bytes).1.Inv := by
  by_cases h : s.fault.valid = false ∧ bytes.length ≤ 3584
  · rw [State.load_accepted s bytes h.1 h.2]
    have hwf : (s.mem.writeBytes 512 bytes).wf :=
      Memory.wf_writeBytes bytes (by simp only [Config.memSize]; omega) hs.memWf
    exact ⟨hwf, hs.pcBound, hs.slotBound, hs.latch⟩
  · rw [State.load_rejected s bytes (by simpa [imp_iff_not_or] using h)]
    exact hs

theorem State.Inv.tickTimers (hs : s.Inv) : s.tickTimers.Inv := by
  cases h : s.fault.valid with
  | false => rw [s.tickTimers_running h]; exact ⟨hs.memWf, hs.pcBound, hs.slotBound, hs.latch⟩
  | true => rw [s.tickTimers_faulted h]; exact hs

theorem State.Inv.setKey (hs : s.Inv) (k : Nat) (pressed : Bool) : (s.setKey k pressed).Inv := by
  by_cases h : s.fault.valid = false ∧ k < 16
  · rw [s.setKey_running k pressed h.1 h.2]
    exact ⟨hs.memWf, hs.pcBound, hs.slotBound, hs.latch⟩
  · rw [s.setKey_refused k pressed (by simpa [imp_iff_not_or] using h)]
    exact hs

/-- Each of the seven operations keeps the invariant. -/
theorem Operation.apply_inv (s : State) (op : Operation) (hs : s.Inv) : (op.apply s).1.Inv := by
  cases op with
  | construct | reset => exact s.hostReset_inv
  | load bytes => exact hs.load bytes
  | step => exact hs.of_step s.step_eq_afterStep
  | tickTimers => exact hs.tickTimers
  | getDisplay => exact hs
  | setKey k pressed => exact hs.setKey k pressed

end

/-- Settles O16: by induction over the execution, since each operation keeps the invariant. -/
theorem everyExecutionKeepsTheInvariant : Obligations.EveryExecutionKeepsTheInvariant := fun s hs =>
  ⟨fun ops => runOps_induction Operation.apply_inv s ops hs,
   fun sched n => ⟨stateAt_induction Operation.apply_inv s sched hs n, stateAt_eq_runOps s sched n⟩⟩

/-! RND -/

/-- The words of family C are RND (30_encoding.md R86). -/
theorem decodeWord_formatXI_rnd (x : Reg) (nn : Byte) : decodeWord (formatXI 0xC x nn) = some (.rnd x nn) := by
  simp [decodeWord, fieldD1_formatXI, fieldX_formatXI, fieldNN_formatXI]

/-- Settles O40: RND is an advance, a draw and one register write. -/
theorem rndMasksTheDrawnByte : Obligations.RndMasksTheDrawnByte := by
  intro x nn s
  refine ⟨decodeWord_formatXI_rnd x nn, s.advance.drawRand.2.setReg x (Config.rand s.draws &&& nn), rfl, rfl,
    State.setReg_reg_same _ _ _, ?_, rfl, onlyRegs_setReg s x _⟩
  rw [State.setReg_reg_same, BitVec.and_assoc, BitVec.and_not_self]
  exact BitVec.and_zero

end Sys2Proof.Machine
end

section
/-! PROOFS. The state of the machine (10_state.md): what a step is in each of its cases, the invariant at reset and after a step,
precise faults, the devices and their writers, the sound timer nobody reads, the call stack, the delay timer under a schedule, and
what reset and the display view hold. -/

namespace Sys2Proof.Machine

open Host (Outcome)

/-! The step, an equation per case (30_encoding.md R91) -/

section
variable {s t : State} {i : Instr} {w : Word}

theorem step_of_faulted (hv : s.fault.valid = true) : step s = .next s := by simp [step, hv]

theorem step_of_fetch_error (hrun : s.running) {f : Fault} (hf : s.fetch = .error f) : step s = .next (s.enterFault f) := by
  simp [step, hrun, hf]

theorem step_of_illegal (hrun : s.running) (hf : s.fetch = .ok w) (hd : decodeWord w = none) :
    step s = .next (s.enterFault (.illegalInstruction w)) := by
  simp [step, hrun, hf, hd]

theorem step_of_decoded (hrun : s.running) (hf : s.fetch = .ok w) (hd : decodeWord w = some i) : step s = exec i s := by
  simp [step, hrun, hf, hd]

end

/-- Settles O7: the fetch reads the two bytes at PC, the one at the lower address high. -/
theorem stepRunsTheDecodedInstruction : Obligations.StepRunsTheDecodedInstruction :=
  fun s _ hrun hpc hd => step_of_decoded hrun (s.fetch_ok hpc) hd

/-! The invariant -/

/-- Settles O14: each effect of an instruction keeps the invariant, and so does a fault (`State.Inv.of_step`). -/
theorem stepKeepsTheInvariant : Obligations.StepKeepsTheInvariant := fun _ _ hs h => hs.of_step h

/-- Settles O15: a reset of the reset state is the reset state, and every reset leaves the invariant. -/
theorem invariantHoldsAtReset : Obligations.InvariantHoldsAtReset := State.reset.hostReset_inv

/-! Faults are precise (60_exceptions.md R177) -/

section
variable {s t : State} {i : Instr}

/-- The only effect of an instruction that writes the latch is a fault taken. -/
theorem Effect.eq_enterFault (he : Effect s i t) (hrun : s.running) (ht : ¬ t.running) : ∃ f, t = s.enterFault f := by
  cases he with
  | fault f => exact ⟨f, rfl⟩
  | quiet hq => exact absurd ((congrArg FaultLatch.valid hq.fault).trans hrun) ht
  | call | ret | store => exact absurd hrun ht

/-- A step that leaves a running machine faulted has taken a fault and done nothing else. -/
theorem eq_enterFault_of_step (hrun : s.running) (h : step s = .next t) (ht : ¬ t.running) : ∃ f, t = s.enterFault f := by
  obtain ⟨hv, -⟩ | ⟨-, ⟨-, h'⟩ | ⟨w, -, -, ⟨-, h'⟩ | ⟨i, -, h'⟩⟩⟩ := step_cases s
  · cases hv.symm.trans hrun
  · rw [h'] at h; cases h; exact ⟨_, rfl⟩
  · rw [h'] at h; cases h; exact ⟨_, rfl⟩
  · exact (effect_of_exec (h' ▸ h)).eq_enterFault hrun ht

end

/-- Settles O11: such a step has taken one of the six faults, whose codes are 1 to 6. -/
theorem faultsArePrecise : Obligations.FaultsArePrecise := by
  intro s t hrun h ht
  obtain ⟨f, rfl⟩ := eq_enterFault_of_step hrun h ht
  exact ⟨f.code, f.info, faultTaken_enterFault s f, f.code_bounds.1, f.code_bounds.2, rfl⟩

/-! Who writes the stack and the devices -/

/-- Settles O19: of the effects only CALL's push and RET's pop touch the stack. -/
theorem onlyCallAndRetWriteTheStack : Obligations.OnlyCallAndRetWriteTheStack := by
  intro i s t h hcall hret
  cases effect_of_exec h with
  | fault | store => exact ⟨rfl, rfl⟩
  | quiet hq => exact hq.stack
  | call nnn => exact absurd rfl (hcall nnn)
  | ret => exact absurd rfl hret

/-! CALL and RET, an equation per case (40_control_flow.md R101, R103, R174, R175) -/

/-- The state a CALL leaves when slot SP is free. -/
def State.called (s : State) (nnn : Addr) (h : s.sp.val < 16) : State :=
  State.jump { s with stack := s.stack.set s.sp.val (s.pc + 2) h, sp := ⟨s.sp.val + 1, Nat.succ_lt_succ h⟩ } (absolute nnn)

/-- The state a RET leaves when slot `k` is on top. -/
def State.returned (s : State) (k : Nat) (hk : k < 16) : State :=
  State.jump { s with sp := ⟨k, Nat.lt_succ_of_lt hk⟩ } s.stack[k]

section
variable {s : State} (nnn : Addr)

theorem exec_call_free (h : s.sp.val < 16) : exec (.call nnn) s = .next (s.called nnn h) :=
  execCall_eq s nnn (State.push_ok s.advance _ h)

theorem exec_call_full (h : s.sp.val = 16) : exec (.call nnn) s = .next (s.enterFault .stackOverflow) :=
  execCall_eq s nnn (State.push_full s.advance _ h)

theorem exec_ret_filled {k : Nat} (hk : k < 16) (h : s.sp.val = k + 1) : exec .ret s = .next (s.returned k hk) :=
  execRet_eq s (State.pop_ok s.advance k h hk)

theorem exec_ret_empty (h : s.sp.val = 0) : exec .ret s = .next (s.enterFault .stackUnderflow) :=
  execRet_eq s (State.pop_empty s.advance h)

end

/-- A CALL finds a slot free or the stack full. -/
theorem exec_call_cases (s : State) (nnn : Addr) :
    (∃ h : s.sp.val < 16, exec (.call nnn) s = .next (s.called nnn h)) ∨
    (s.sp.val = 16 ∧ exec (.call nnn) s = .next (s.enterFault .stackOverflow)) := by
  by_cases h : s.sp.val < 16
  · exact .inl ⟨h, exec_call_free nnn h⟩
  · exact .inr ⟨by omega, exec_call_full nnn (by omega)⟩

/-- A RET finds an address on the stack or the stack empty. -/
theorem exec_ret_cases (s : State) :
    (∃ k, ∃ hk : k < 16, s.sp.val = k + 1 ∧ exec .ret s = .next (s.returned k hk)) ∨
    (s.sp.val = 0 ∧ exec .ret s = .next (s.enterFault .stackUnderflow)) := by
  by_cases h : s.sp.val = 0
  · exact .inr ⟨h, exec_ret_empty h⟩
  · obtain ⟨k, hk⟩ := Nat.exists_eq_succ_of_ne_zero h
    exact .inl ⟨k, by omega, hk, exec_ret_filled (by omega) hk⟩

/-- An absolute target is the address the instruction names (30_encoding.md R84). -/
theorem absolute_toNat (nnn : Addr) : (absolute nnn).toNat = nnn.toNat := by
  have := nnn.isLt
  simp only [absolute, zext16, BitVec.toNat_setWidth]
  omega

theorem onlyStack_called (s : State) (nnn : Addr) (h : s.sp.val < 16) : OnlyStack s (s.called nnn h) :=
  ⟨fun _ _ => rfl, rfl, fun _ => rfl, rfl, rfl, rfl, rfl, rfl⟩

theorem onlyStack_returned (s : State) (k : Nat) (hk : k < 16) : OnlyStack s (s.returned k hk) :=
  ⟨fun _ _ => rfl, rfl, fun _ => rfl, rfl, rfl, rfl, rfl, rfl⟩

/-- The words of family 2 are CALL (30_encoding.md R86). -/
theorem decodeWord_formatA_call (nnn : Addr) : decodeWord (formatA 0x2 nnn) = some (.call nnn) := by
  simp [decodeWord, fieldD1_formatA, fieldNNN_formatA]

/-- Settles O26: the push writes slot SP alone. -/
theorem callPushesAndJumps : Obligations.CallPushesAndJumps := by
  intro nnn s h
  refine ⟨decodeWord_formatA_call nnn, s.called nnn h, exec_call_free nnn h, absolute_toNat nnn, rfl, ?_, fun k hk => ?_,
    onlyStack_called s nnn h⟩
  · exact Vector.getElem_set_self h
  · exact Vector.getElem_set_ne h k.isLt (Ne.symm hk)

/-- Settles O27: the pop moves SP and writes no slot. -/
theorem retPopsIntoPc : Obligations.RetPopsIntoPc := fun s k hk h =>
  ⟨decodeWord_ret, s.returned k hk, exec_ret_filled hk h, rfl, rfl, rfl, onlyStack_returned s k hk⟩

/-- Settles O29: the slot the RET takes is the one the CALL wrote. -/
theorem callThenRetReturns : Obligations.CallThenRetReturns := by
  intro nnn s h
  obtain ⟨-, t, ht, -, hsp, hslot, -⟩ := callPushesAndJumps nnn s h
  obtain ⟨-, u, hu, hpc, husp, -⟩ := retPopsIntoPc t s.sp.val h hsp
  exact ⟨t, u, ht, hu, hpc.trans hslot, Fin.ext husp⟩

/-! WKEY, an equation per case (45_keypad_timers.md R163) -/

section
variable {s : State} (x : Reg)

theorem exec_wkey_pressed {k : Fin 16} (hk : s.lowestKey = some k) :
    exec (.wkey x) s = .next (s.advance.setReg x (BitVec.ofNat 8 k.val)) := by
  simp [exec, execWkey, hk]

theorem exec_wkey_waiting (hk : s.lowestKey = none) :
    exec (.wkey x) s = .next (s.advance.jump (s.advance.pc - 2)) := by
  simp [exec, execWkey, hk]

end

/-! The devices and their writers (10_state.md R28, R34 to R37) -/

/-- The keypad latch is as it was, and DT, ST, the display and `I` are unless `i` is an instruction named as their writer. -/
structure DeviceFrame (i : Instr) (s t : State) : Prop where
  key : t.key = s.key
  dt : (∀ x, i ≠ .stdt x) → t.dt = s.dt
  st : (∀ x, i ≠ .stst x) → t.st = s.st
  disp : i ≠ .cls → (∀ x y n, i ≠ .drw x y n) → t.disp = s.disp
  index : (∀ nnn, i ≠ .ldidx nnn) → (∀ x, i ≠ .addidx x ∧ i ≠ .glyph x) → t.i = s.i

section
variable {i : Instr} {s t u : State}

/-- A state with the devices of the one before, whatever the instruction. -/
theorem DeviceFrame.of_eqs (hkey : t.key = s.key) (hdt : t.dt = s.dt) (hst : t.st = s.st) (hdisp : t.disp = s.disp)
    (hi : t.i = s.i) : DeviceFrame i s t :=
  ⟨hkey, fun _ => hdt, fun _ => hst, fun _ _ => hdisp, fun _ _ => hi⟩

theorem deviceFrame_enterFault (f : Fault) : DeviceFrame i s (s.enterFault f) := .of_eqs rfl rfl rfl rfl rfl

theorem deviceFrame_skipIf (c : Bool) : DeviceFrame i s (s.advance.skipIf c) := by
  apply DeviceFrame.of_eqs <;> simp

theorem DeviceFrame.of_guarded {c : Option Fault} (h : complete s (guarded c u) = .next t) (hu : DeviceFrame i s u) :
    DeviceFrame i s t := by
  obtain ⟨-, rfl⟩ | ⟨f, -, rfl⟩ := complete_guarded h
  · exact hu
  · exact deviceFrame_enterFault f

theorem DeviceFrame.of_map {α : Type} {r : Except Fault α} {g : α → State} (hg : ∀ a, DeviceFrame i s (g a))
    (h : complete s (r.map g) = .next t) : DeviceFrame i s t := by
  cases r with
  | error f => cases h; exact deviceFrame_enterFault f
  | ok a => cases h; exact hg a


/-- Executing an instruction changes a device only where the instruction is one of its writers. -/
theorem deviceFrame_of_exec (h : exec i s = .next t) : DeviceFrame i s t := by
  cases i with
  | nop | jp | jpv0 | ldi | addi | mov | or | and | xor | add | sub | shr | subn | shl | rnd | lddt =>
    cases h
    exact .of_eqs rfl rfl rfl rfl rfl
  | sei | snei | ser | sner => cases h; exact deviceFrame_skipIf _
  | skp | sknp => exact .of_map (fun _ => deviceFrame_skipIf _) h
  | call nnn =>
    obtain ⟨_, h'⟩ | ⟨-, h'⟩ := exec_call_cases s nnn <;> cases h'.symm.trans h <;> exact .of_eqs rfl rfl rfl rfl rfl
  | ret =>
    obtain ⟨k, hk, -, h'⟩ | ⟨-, h'⟩ := exec_ret_cases s <;> cases h'.symm.trans h <;> exact .of_eqs rfl rfl rfl rfl rfl
  | wkey x =>
    cases hk : s.lowestKey with
    | some k => cases (exec_wkey_pressed x hk).symm.trans h; exact .of_eqs rfl rfl rfl rfl rfl
    | none => cases (exec_wkey_waiting x hk).symm.trans h; exact .of_eqs rfl rfl rfl rfl rfl
  | bcd | stm => exact .of_guarded h (.of_eqs rfl rfl rfl rfl rfl)
  | ldm x => exact .of_guarded h (.of_eqs (by simp) (by simp) (by simp) (by simp) (by simp))
  | stdt x => cases h; exact ⟨rfl, fun hw => absurd rfl (hw x), fun _ => rfl, fun _ _ => rfl, fun _ _ => rfl⟩
  | stst x => cases h; exact ⟨rfl, fun _ => rfl, fun hw => absurd rfl (hw x), fun _ _ => rfl, fun _ _ => rfl⟩
  | cls => cases h; exact ⟨rfl, fun _ => rfl, fun _ => rfl, fun hw => absurd rfl hw, fun _ _ => rfl⟩
  | drw x y n =>
    exact .of_guarded h ⟨rfl, fun _ => rfl, fun _ => rfl, fun _ hw => absurd rfl (hw x y n), fun _ _ => rfl⟩
  | ldidx nnn => cases h; exact ⟨rfl, fun _ => rfl, fun _ => rfl, fun _ _ => rfl, fun hw => absurd rfl (hw nnn)⟩
  | addidx x => cases h; exact ⟨rfl, fun _ => rfl, fun _ => rfl, fun _ _ => rfl, fun _ hw => absurd rfl (hw x).1⟩
  | glyph x => cases h; exact ⟨rfl, fun _ => rfl, fun _ => rfl, fun _ _ => rfl, fun _ hw => absurd rfl (hw x).2⟩

end

/-- Settles O21: the frame of the devices holds of every instruction. -/
theorem eachDeviceHasOnlyItsWriters : Obligations.EachDeviceHasOnlyItsWriters := by
  intro i s t h
  obtain ⟨hkey, hdt, hst, hdisp, hindex⟩ := deviceFrame_of_exec h
  exact ⟨hkey, hdt, hst, hdisp, hindex⟩

/-! No instruction reads ST (10_state.md R37): a step from a state with another ST does the same, but for ST -/

section
variable {i : Instr} {s t u : State} (b : Byte)

theorem complete_guarded_setSt {c : Option Fault} {u' : State} (hu : u' = u.setSt b)
    (h : complete s (guarded c u) = .next t) : complete (s.setSt b) (guarded c u') = .next (t.setSt b) := by
  cases c with
  | none => cases h; exact congrArg Outcome.next hu
  | some f => cases h; rfl

theorem complete_map_setSt {α : Type} {r : Except Fault α} {g g' : α → State} (hg : ∀ a, g' a = (g a).setSt b)
    (h : complete s (r.map g) = .next t) : complete (s.setSt b) (r.map g') = .next (t.setSt b) := by
  cases r with
  | error f => cases h; rfl
  | ok a => cases h; exact congrArg Outcome.next (hg a)

theorem State.skipIf_setSt (s : State) (b : Byte) (c : Bool) : (s.setSt b).skipIf c = (s.skipIf c).setSt b := by
  cases c <;> rfl

theorem State.setRegsFrom_setSt (s : State) (b : Byte) (k : Nat) (bs : List Byte) :
    (s.setSt b).setRegsFrom k bs = (s.setRegsFrom k bs).setSt b := by
  induction bs generalizing s k with
  | nil => rfl
  | cons a bs ih => exact ih (s.setReg (BitVec.ofNat 4 k) a) (k + 1)

/-- Executing an instruction with another ST leaves the same state but for ST. -/
theorem exec_setSt (h : exec i s = .next t) : ∃ c, exec i (s.setSt b) = .next (t.setSt c) := by
  cases i with
  | stst x => cases h; exact ⟨s.reg x, rfl⟩
  | nop | jp | jpv0 | ldi | addi | mov | or | and | xor | add | sub | shr | subn | shl | rnd | lddt =>
    cases h
    exact ⟨b, rfl⟩
  | cls | stdt | ldidx | addidx | glyph => cases h; exact ⟨b, rfl⟩
  | sei | snei | ser | sner => cases h; exact ⟨b, congrArg Outcome.next (s.advance.skipIf_setSt b _)⟩
  | skp | sknp => exact ⟨b, complete_map_setSt b (fun _ => s.advance.skipIf_setSt b _) h⟩
  | call nnn =>
    obtain ⟨hsp, h'⟩ | ⟨hsp, h'⟩ := exec_call_cases s nnn <;> cases h'.symm.trans h
    · exact ⟨b, exec_call_free (s := s.setSt b) nnn hsp⟩
    · exact ⟨b, exec_call_full (s := s.setSt b) nnn hsp⟩
  | ret =>
    obtain ⟨k, hk, hsp, h'⟩ | ⟨hsp, h'⟩ := exec_ret_cases s <;> cases h'.symm.trans h
    · exact ⟨b, exec_ret_filled (s := s.setSt b) hk hsp⟩
    · exact ⟨b, exec_ret_empty (s := s.setSt b) hsp⟩
  | wkey x =>
    cases hk : s.lowestKey with
    | some k => cases (exec_wkey_pressed x hk).symm.trans h; exact ⟨b, exec_wkey_pressed (s := s.setSt b) x hk⟩
    | none => cases (exec_wkey_waiting x hk).symm.trans h; exact ⟨b, exec_wkey_waiting (s := s.setSt b) x hk⟩
  | drw | bcd | stm => exact ⟨b, complete_guarded_setSt b rfl h⟩
  | ldm x => exact ⟨b, complete_guarded_setSt b (s.advance.setRegsFrom_setSt b 0 _) h⟩

/-- One step with another ST leaves the same state but for ST: neither the latch, nor the fetch, nor the decoding reads it. -/
theorem step_setSt (h : step s = .next t) : ∃ c, step (s.setSt b) = .next (t.setSt c) := by
  obtain ⟨hv, h'⟩ | ⟨hrun, ⟨hpc, h'⟩ | ⟨w, -, hf, ⟨hd, h'⟩ | ⟨i, hd, h'⟩⟩⟩ := step_cases s
  · cases h'.symm.trans h
    exact ⟨b, step_of_faulted (s := s.setSt b) hv⟩
  · cases h'.symm.trans h
    exact ⟨b, step_of_fetch_error (s := s.setSt b) hrun (s.fetch_error hpc)⟩
  · cases h'.symm.trans h
    exact ⟨b, step_of_illegal (s := s.setSt b) hrun hf hd⟩
  · obtain ⟨c, hc⟩ := exec_setSt b (h'.symm.trans h)
    exact ⟨c, (step_of_decoded (s := s.setSt b) hrun hf hd).trans hc⟩

end

/-- Settles O17: every step answers, and with another ST it answers the same state but for ST. -/
theorem soundTimerIsNotObservable : Obligations.SoundTimerIsNotObservable := by
  intro s b
  obtain ⟨c, hc⟩ := step_setSt b s.step_eq_afterStep
  exact ⟨s.afterStep, s.afterStep.setSt c, s.step_eq_afterStep, hc, rfl⟩

/-! The timer instructions (45_keypad_timers.md R162, R164, R165) -/

/-- The words of family F are told apart by their low byte (30_encoding.md R86). -/
theorem decodeWord_formatXI_F (x : Reg) (nn : Byte) : decodeWord (formatXI 0xF x nn) = decodeF x nn := by
  simp [decodeWord, fieldD1_formatXI, fieldX_formatXI, fieldNN_formatXI]

theorem onlyTimers_setDt (s : State) (b : Byte) : OnlyTimers s (s.advance.setDt b) :=
  ⟨fun _ _ => rfl, rfl, fun _ => rfl, ⟨rfl, rfl⟩, rfl, rfl, rfl⟩

theorem onlyTimers_setSt (s : State) (b : Byte) : OnlyTimers s (s.advance.setSt b) :=
  ⟨fun _ _ => rfl, rfl, fun _ => rfl, ⟨rfl, rfl⟩, rfl, rfl, rfl⟩

theorem State.soundActive_iff (s : State) : s.soundActive = true ↔ s.st ≠ 0 := by simp [State.soundActive]

/-- Settles O53: each of the three is an advance and one write, of a register or of a timer. -/
theorem timerInstructionsMoveTheTimers : Obligations.TimerInstructionsMoveTheTimers := fun x s =>
  ⟨⟨decodeWord_formatXI_F x 0x07, s.advance.setReg x s.dt, rfl, rfl, State.setReg_reg_same _ _ _, onlyRegs_setReg s x _⟩,
   ⟨decodeWord_formatXI_F x 0x15, s.advance.setDt (s.reg x), rfl, rfl, rfl, rfl, onlyTimers_setDt s _⟩,
   ⟨decodeWord_formatXI_F x 0x18, s.advance.setSt (s.reg x), rfl, rfl, rfl, rfl, onlyTimers_setSt s _,
    State.soundActive_iff _⟩⟩

/-! DT along a schedule (60_exceptions.md R184, 70_reset_and_hazards.md R211) -/

theorem State.load_dt (s : State) (bytes : List Byte) : (s.load bytes).1.dt = s.dt := by
  unfold State.load
  split <;> rfl

theorem State.setKey_dt (s : State) (k : Nat) (pressed : Bool) : (s.setKey k pressed).dt = s.dt := by
  unfold State.setKey
  split
  · rfl
  · split <;> rfl

/-- An operation that does not disturb DT lowers it by one, with the floor 0, when it is a tick, and keeps it when it is not. -/
theorem Operation.apply_dt {s : State} {op : Operation} (hrun : s.running) (hreset : op ≠ .reset)
    (hconstruct : op ≠ .construct) (hstep : op = .step → s.afterStep.dt = s.dt) :
    (op.apply s).1.dt.toNat = s.dt.toNat - [op].count .tickTimers := by
  cases op with
  | construct => exact absurd rfl hconstruct
  | reset => exact absurd rfl hreset
  | load bytes => exact congrArg BitVec.toNat (s.load_dt bytes)
  | step => exact congrArg BitVec.toNat (hstep rfl)
  | tickTimers => simp [Operation.apply, s.tickTimers_running hrun]
  | getDisplay => rfl
  | setKey k pressed => exact congrArg BitVec.toNat (s.setKey_dt k pressed)

/-- An undisturbed finite execution lowers DT by its ticks, with the floor 0. -/
theorem runOps_dt (s : State) (ops : List Operation) (h : delayUndisturbed s ops) :
    (runOps s ops).dt.toNat = s.dt.toNat - ops.count .tickTimers := by
  induction ops generalizing s with
  | nil => rfl
  | cons op ops ih =>
    obtain ⟨hrun, hreset, hconstruct, hstep, hrest⟩ := h
    have hcount : (op :: ops).count .tickTimers = [op].count .tickTimers + ops.count .tickTimers := by
      rw [← List.count_append, List.singleton_append]
    rw [runOps_cons, ih _ hrest, Operation.apply_dt hrun hreset hconstruct hstep, hcount, Nat.sub_sub]

/-- More operations of a schedule hold no fewer occurrences of an operation. -/
theorem Schedule.count_take_mono (sched : Schedule) (op : Operation) {n m : Nat} (h : n ≤ m) :
    (sched.take n).count op ≤ (sched.take m).count op :=
  ((List.range_sublist.mpr h).map sched).count_le op

/-- An operation that recurs occurs any number of times among enough first operations. -/
theorem Schedule.Recurs.exists_count_take {sched : Schedule} {op : Operation} (h : sched.Recurs op) (k : Nat) :
    ∃ n, k ≤ (sched.take n).count op := by
  induction k with
  | zero => exact ⟨0, Nat.zero_le _⟩
  | succ k ih =>
    obtain ⟨n, hn⟩ := ih
    obtain ⟨m, hnm, hm⟩ := h n
    have hle := sched.count_take_mono op hnm
    refine ⟨m + 1, ?_⟩
    rw [Schedule.take_succ, List.count_append, hm, List.count_singleton_self]
    omega

/-- Settles O55: an undisturbed execution counts its ticks, and the first operations with as many ticks as DT had leave 0. -/
theorem delayTimerCountsTheTicks : Obligations.DelayTimerCountsTheTicks := by
  refine ⟨runOps_dt, fun s sched hund hrec => ?_⟩
  obtain ⟨n, hn⟩ := hrec.exists_count_take s.dt.toNat
  refine ⟨n, BitVec.eq_of_toNat_eq ?_⟩
  rw [stateAt_eq_runOps, runOps_dt s _ (hund n), Nat.sub_eq_zero_of_le hn]
  rfl

/-! What reset holds (10_state.md R41) -/

theorem unlistedByte_font (a : Fin 80) : unlistedByte a.val = Config.font a := dif_pos a.isLt

theorem unlistedByte_high {a : Nat} (h : 80 ≤ a) : unlistedByte a = 0 := dif_neg (Nat.not_lt.mpr h)

theorem State.reset_reg (r : Reg) : State.reset.reg r = 0 := Vector.getElem_replicate r.isLt

theorem State.reset_stack (k : Fin 16) : State.reset.stack[k] = 0 := Vector.getElem_replicate k.isLt

theorem State.reset_key (k : Fin 16) : State.reset.key[k] = false := Vector.getElem_replicate k.isLt

/-- Settles O56: both states are `State.reset` but for the count of drawn bytes, which no element of R20 reads. -/
theorem resetSetsEveryElement : Obligations.ResetSetsEveryElement := by
  intro s t ht
  have hreset : ∃ d, t = { State.reset with draws := d } := by
    obtain rfl | rfl := ht
    · exact ⟨0, rfl⟩
    · exact ⟨s.draws, s.hostReset_eq⟩
  obtain ⟨d, rfl⟩ := hreset
  exact ⟨State.reset_reg, rfl, rfl, rfl, State.reset_stack, unlistedByte_font, fun a h _ => unlistedByte_high h,
    Display.pixel_clear, State.reset_key, rfl, rfl, rfl⟩

/-! The display view (60_exceptions.md R188) -/

/-- The view is the rows of the display one after the other. -/
theorem State.getDisplay_eq_flatten (s : State) : s.getDisplay = s.disp.flatten.toList := by
  change s.getDisplay = (s.disp.toArray.map Vector.toArray).flatten.toList
  rw [Array.toList_flatten, Array.toList_map, List.map_map]
  exact List.flatMap_def

/-- Settles O59: element x + 64*y of 32 rows of 64 is element x of row y. -/
theorem displayViewIsRowMajor : Obligations.DisplayViewIsRowMajor := by
  intro s
  refine ⟨rfl, ?_, fun x y => ?_⟩
  · rw [s.getDisplay_eq_flatten, Vector.length_toList]
  · have hlt : x.val + 64 * y.val < 32 * 64 := by omega
    have hdiv : (x.val + 64 * y.val) / 64 = y.val := by omega
    have hmod : (x.val + 64 * y.val) % 64 = x.val := by omega
    rw [s.getDisplay_eq_flatten, Vector.getElem?_toList, Vector.getElem?_eq_getElem hlt, Vector.getElem_flatten]
    simp only [hdiv, hmod]
    rfl

end Sys2Proof.Machine
end

section
/-! PROOFS. Memory (20_memory.md): the range check before any effect, bytes stored at `I` and registers loaded from it, a fetch
beyond memory, and an instruction that STM stores for the very next fetch. -/

namespace Sys2Proof.Machine

open Host (Outcome)

/-- Settles O9: the fetch is refused, and the step takes that fault. -/
theorem fetchBeyondMemoryFaults : Obligations.FetchBeyondMemoryFaults := fun s hrun hpc =>
  ⟨s.enterFault (.fetchOutOfRange s.pc), step_of_fetch_error hrun (s.fetch_error hpc), faultTaken_enterFault s _, rfl⟩

/-! The range check before any effect (R57, R61, R173) -/

section
variable {s u : State} {n : Nat}

/-- When the `n` bytes at `I` are inside memory, the step completes with its result. -/
theorem complete_guarded_inside (h : s.i.toNat + n ≤ 4096) :
    complete s (guarded (rangeFault (s.ea 0) n) u) = .next u := by
  rw [rangeFault_inside (show s.ea 0 + n ≤ 4096 from h), guarded_none, complete_ok]

/-- When one of the `n` bytes at `I` is outside memory, the step takes the fault at the lowest such address. -/
theorem complete_guarded_outside (hn : 0 < n) (h : 4096 < s.i.toNat + n) :
    ∃ t, complete s (guarded (rangeFault (s.ea 0) n) u) = .next t ∧
      FaultTaken s t 3 (BitVec.ofNat 16 (max s.i.toNat 4096)) := by
  refine ⟨s.enterFault (.memoryOutOfRange (max s.i.toNat 4096)), ?_, faultTaken_enterFault s _⟩
  rw [rangeFault_outside hn (show 4096 < s.ea 0 + n from h), guarded_some, complete_error]
  rfl

end

/-- Settles O45: each of the four checks its bytes at `I` first: 3, X + 1, X + 1 and N of them. -/
theorem memoryRangeFaultsBeforeAnyEffect : Obligations.MemoryRangeFaultsBeforeAnyEffect := fun x _ n _ =>
  ⟨fun h => complete_guarded_outside (n := 3) (by omega) (by omega),
   fun h => ⟨complete_guarded_outside (n := x.toNat + 1) (by omega) (by omega),
     complete_guarded_outside (n := x.toNat + 1) (by omega) (by omega)⟩,
   fun hn h => complete_guarded_outside (n := n.toNat) hn (by omega)⟩

/-! Bytes stored at `I` (43_index_memory.md R143, R144) -/

/-- The state BCD and STM leave: PC advanced, and bytes written from `I` on. -/
def State.stored (s : State) (bs : List Byte) : State := s.advance.setMem (s.mem.writeBytes (s.ea 0) bs)

theorem State.read_stored (s : State) {bs : List Byte} {k : Nat} (h : k < bs.length) :
    (s.stored bs).mem.read (s.ea k) = bs[k] :=
  Memory.read_writeBytes_inside s.mem (s.ea 0) bs k h

theorem onlyMem_stored (s : State) (bs : List Byte) : OnlyMem s (s.stored bs) (s.ea 0) bs.length :=
  ⟨fun _ _ => rfl, rfl, fun a ha => Memory.read_writeBytes_outside s.mem (s.ea 0) bs a ha, ⟨rfl, rfl⟩, rfl, rfl, rfl, rfl, rfl⟩

theorem exec_bcd_inside {s : State} (x : Reg) (h : s.i.toNat + 2 ≤ 4095) :
    exec (.bcd x) s = .next (s.stored (bcdDigits (s.reg x))) :=
  complete_guarded_inside (n := 3) (by omega)

theorem exec_stm_inside {s : State} (x : Reg) (h : s.i.toNat + x.toNat ≤ 4095) :
    exec (.stm x) s = .next (s.stored (s.firstRegs (x.toNat + 1))) :=
  complete_guarded_inside (n := x.toNat + 1) (by omega)

/-- A number no greater than a byte is itself as a byte. -/
theorem toNat_ofNat_of_le {b : Byte} {m : Nat} (h : m ≤ b.toNat) : (BitVec.ofNat 8 m).toNat = m :=
  Nat.mod_eq_of_lt (h.trans_lt b.isLt)

/-- Settles O42: the three bytes stored are the digits, none of which exceeds the byte they are of. -/
theorem bcdWritesThreeDigits : Obligations.BcdWritesThreeDigits := by
  intro x s h
  have hread (k : Nat) (hk : k < 3) := s.read_stored (bs := bcdDigits (s.reg x)) hk
  refine ⟨decodeWord_formatXI_F x 0x33, _, exec_bcd_inside x h, rfl, ?_, ?_, ?_, onlyMem_stored s _⟩
  · rw [hread 0 (by decide)]
    exact toNat_ofNat_of_le (Nat.div_le_self _ _)
  · rw [hread 1 (by decide)]
    exact toNat_ofNat_of_le ((Nat.mod_le _ _).trans (Nat.div_le_self _ _))
  · rw [hread 2 (by decide)]
    exact toNat_ofNat_of_le (Nat.mod_le _ _)

/-- The byte at `I + r` after `V[0]` to `V[X]` are stored is register `r`, for `r` up to X. -/
theorem State.read_stored_firstRegs (s : State) {x r : Reg} (h : r.toNat ≤ x.toNat) :
    (s.stored (s.firstRegs (x.toNat + 1))).mem.read (s.ea r.toNat) = s.reg r := by
  rw [s.read_stored (by rw [State.firstRegs_length]; omega)]
  simp [State.firstRegs, State.reg]

/-- Settles O43: the bytes stored are the registers `V[0]` to `V[X]`, X + 1 of them. -/
theorem stmStoresTheFirstRegisters : Obligations.StmStoresTheFirstRegisters := by
  intro x s h
  have honly := onlyMem_stored s (s.firstRegs (x.toNat + 1))
  rw [State.firstRegs_length] at honly
  exact ⟨decodeWord_formatXI_F x 0x55, _, exec_stm_inside x h, rfl, fun _ hr => s.read_stored_firstRegs hr, honly⟩

/-- Settles O18: PC is advanced to `I`, so the fetch reads the first two of the bytes stored. -/
theorem storedInstructionIsFetchedNext : Obligations.StoredInstructionIsFetchedNext := by
  intro s x hrun hd hx hi hin
  have hstep : step s = exec (.stm x) s := stepRunsTheDecodedInstruction s _ hrun (by omega) hd
  have hpc : (s.stored (s.firstRegs (x.toNat + 1))).pc.toNat = s.i.toNat := by
    change (s.pc + 2).toNat = s.i.toNat
    rw [BitVec.toNat_add, hi]
    exact Nat.mod_eq_of_lt (show s.pc.toNat + 2 < 65536 by omega)
  have hhi := s.read_stored_firstRegs (x := x) (r := 0) (Nat.zero_le _)
  have hlo := s.read_stored_firstRegs (x := x) (r := 1) hx
  refine ⟨_, hstep.trans (exec_stm_inside x hin), ?_⟩
  rw [State.fetch_ok _ (by omega), hpc]
  exact congrArg Except.ok (congrArg₂ bigEndian hhi hlo)

/-! Registers loaded from `I` (43_index_memory.md R145) -/

/-- LDM writes PC and the registers it loads, and nothing else. -/
theorem onlyRegs_loaded (s : State) (x : Reg) :
    OnlyRegs s (s.advance.setRegsFrom 0 (s.mem.readBytes (s.ea 0) (x.toNat + 1))) (destRegs (.ldm x)) :=
  have hq := quiet_loaded s x
  ⟨hq.regs, by simp, fun a => congrArg (·.read a) hq.mem, hq.stack, by simp, by simp, by simp, by simp, hq.fault⟩

/-- Settles O44: the registers are read from the X + 1 bytes at `I`. -/
theorem ldmLoadsTheFirstRegisters : Obligations.LdmLoadsTheFirstRegisters := fun x s h =>
  ⟨decodeWord_formatXI_F x 0x65, _, complete_guarded_inside (n := x.toNat + 1) (by omega), by simp, s.reg_loaded x,
    onlyRegs_loaded s x⟩

end Sys2Proof.Machine
end

section
/-! PROOFS. The encoding (30_encoding.md): a decoded word is the instruction's own word and back, the rows of the opcode table, the
illegal words and what a step does on one of them. -/

namespace Sys2Proof

open Machine

/-! A word is its format, once its major opcode is known (R83) -/

section
variable {w : Word} {d : Nibble}

theorem formatA_of_fieldD1 (hd : fieldD1 w = d) : formatA d (fieldNNN w) = w := hd ▸ formatA_fields w

theorem formatXI_of_fieldD1 (hd : fieldD1 w = d) : formatXI d (fieldX w) (fieldNN w) = w := hd ▸ formatXI_fields w

theorem formatXY_of_fieldD1 (hd : fieldD1 w = d) : formatXY d (fieldX w) (fieldY w) (fieldN w) = w := hd ▸ formatXY_fields w

end

/-- The sixteen major opcodes by what the rest of the word is: family 0, formats A, XI and XYN, a zero low nibble, and the
families 8, E and F with a minor opcode (R86). -/
theorem majorOpcode_cases (d : Nibble) :
    d = 0x0 ∨ (d = 0x1 ∨ d = 0x2 ∨ d = 0xA ∨ d = 0xB) ∨ (d = 0x3 ∨ d = 0x4 ∨ d = 0x6 ∨ d = 0x7 ∨ d = 0xC) ∨ d = 0xD ∨
      (d = 0x5 ∨ d = 0x9) ∨ d = 0x8 ∨ d = 0xE ∨ d = 0xF := by
  revert d; decide

/-! Encode, then decode -/

/-- Each field comes back from the format it was put into. -/
theorem decodeWord_encode (i : Instr) : decodeWord (encode i) = some i := by
  cases i with
  | nop | cls | ret => decide
  | jp | call | ldidx | jpv0 => simp [encode, decodeWord, fieldD1_formatA, fieldNNN_formatA]
  | sei | snei | ldi | addi | rnd => simp [encode, decodeWord, fieldD1_formatXI, fieldX_formatXI, fieldNN_formatXI]
  | drw => simp [encode, decodeWord, fieldD1_formatXY, fieldX_formatXY, fieldY_formatXY, fieldN_formatXY]
  | ser | sner =>
    simp [encode, decodeWord, fieldD1_formatXY, fieldX_formatXY, fieldY_formatXY, fieldN_formatXY, decodeLowZero]
  | mov | or | and | xor | add | sub | shr | subn | shl =>
    simp [encode, decodeWord, fieldD1_formatXY, fieldX_formatXY, fieldY_formatXY, fieldN_formatXY, decodeEight]
  | skp | sknp => simp [encode, decodeWord, fieldD1_formatXI, fieldX_formatXI, fieldNN_formatXI, decodeE]
  | lddt | wkey | stdt | stst | addidx | glyph | bcd | stm | ldm => exact decodeWord_formatXI_F _ _

/-- The bytes after the instruction's two are not looked at (R80). -/
theorem decodeBytes_wordBytes (w : Word) (rest : List Byte) {i : Instr} (h : decodeWord w = some i) :
    decodeBytes (wordBytes w ++ rest) = .ok (i, rest) := by
  simp [decodeBytes, wordBytes, bigEndian_wordBytes, h]

/-- Settles O1: the two bytes are the word again, and the word decodes to its instruction. -/
theorem encodeThenDecodeGivesInstruction : Obligations.EncodeThenDecodeGivesInstruction := fun i rest =>
  decodeBytes_wordBytes (encode i) rest (decodeWord_encode i)

/-! Decode, then encode, family by family -/

section
variable {w : Word} {i j : Instr} {x y : Reg} {n : Nibble} {nn : Byte}

theorem encode_of_decodeZero (h : decodeZero w = some i) : encode i = w := by
  unfold decodeZero at h
  split_ifs at h <;> cases h <;> subst w <;> rfl

theorem decodeLowZero_eq_some : decodeLowZero n j = some i ↔ n = 0x0 ∧ j = i := by simp [decodeLowZero]

theorem encode_of_decodeEight (h : decodeEight x y n = some i) : encode i = formatXY 0x8 x y n := by
  unfold decodeEight at h
  split_ifs at h <;> cases h <;> subst n <;> rfl

theorem encode_of_decodeE (h : decodeE x nn = some i) : encode i = formatXI 0xE x nn := by
  unfold decodeE at h
  split_ifs at h <;> cases h <;> subst nn <;> rfl

theorem encode_of_decodeF (h : decodeF x nn = some i) : encode i = formatXI 0xF x nn := by
  unfold decodeF at h
  split_ifs at h <;> cases h <;> subst nn <;> rfl

/-- The fields an instruction is decoded from are the whole word. -/
theorem encode_of_decodeWord (h : decodeWord w = some i) : encode i = w := by
  obtain hd | hA | hXI | hd | hL | hd | hd | hd := majorOpcode_cases (fieldD1 w)
  · rw [decodeWord, hd] at h
    exact encode_of_decodeZero h
  · obtain hd | hd | hd | hd := hA <;>
    · rw [decodeWord, hd] at h
      cases h
      exact formatA_of_fieldD1 hd
  · obtain hd | hd | hd | hd | hd := hXI <;>
    · rw [decodeWord, hd] at h
      cases h
      exact formatXI_of_fieldD1 hd
  · rw [decodeWord, hd] at h
    cases h
    exact formatXY_of_fieldD1 hd
  · obtain hd | hd := hL <;>
    · rw [decodeWord, hd] at h
      obtain ⟨hn, rfl⟩ := decodeLowZero_eq_some.1 h
      have hw := formatXY_of_fieldD1 hd
      rwa [hn] at hw
  · rw [decodeWord, hd] at h
    exact (encode_of_decodeEight h).trans (formatXY_of_fieldD1 hd)
  · rw [decodeWord, hd] at h
    exact (encode_of_decodeE h).trans (formatXI_of_fieldD1 hd)
  · rw [decodeWord, hd] at h
    exact (encode_of_decodeF h).trans (formatXI_of_fieldD1 hd)

end

/-- Settles O2: in each family the fields decoded are all of the word. -/
theorem decodeThenEncodeGivesWord : Obligations.DecodeThenEncodeGivesWord := fun _ _ => encode_of_decodeWord

/-! The rows of the opcode table (R86) -/

namespace Laws.EncodingMatchesRow

/-- Every instruction's row is in the table, and its word matches the row. -/
theorem statement : ∀ i : Instr, Statement i
  | .nop => nop
  | .cls => cls
  | .ret => ret
  | .jp nnn => jp nnn
  | .call nnn => call nnn
  | .sei x nn => sei x nn
  | .snei x nn => snei x nn
  | .ser x y => ser x y
  | .ldi x nn => ldi x nn
  | .addi x nn => addi x nn
  | .mov x y => mov x y
  | .or x y => or x y
  | .and x y => and x y
  | .xor x y => xor x y
  | .add x y => add x y
  | .sub x y => sub x y
  | .shr x y => shr x y
  | .subn x y => subn x y
  | .shl x y => shl x y
  | .sner x y => sner x y
  | .ldidx nnn => ldidx nnn
  | .jpv0 nnn => jpv0 nnn
  | .rnd x nn => rnd x nn
  | .drw x y n => drw x y n
  | .skp x => skp x
  | .sknp x => sknp x
  | .lddt x => lddt x
  | .wkey x => wkey x
  | .stdt x => stdt x
  | .stst x => stst x
  | .addidx x => addidx x
  | .glyph x => glyph x
  | .bcd x => bcd x
  | .stm x => stm x
  | .ldm x => ldm x

end Laws.EncodingMatchesRow

/-- Every row of the table is the row of an instruction, the one its match column decodes to. -/
theorem exists_row_eq {r : OpcodeRow} (hr : r ∈ opcodeTable) : ∃ i : Instr, i.row = r := by
  have hrows : ∀ r ∈ opcodeTable, (decodeWord r.bits).map Instr.row = some r := by decide
  obtain ⟨i, -, hi⟩ := Option.map_eq_some_iff.1 (hrows r hr)
  exact ⟨i, hi⟩

/-- A masked comparison fixes every field that the mask covers. -/
theorem field_eq_of_masked {w m b : Word} {lo len : Nat} (h : w &&& m = b) (hm : field m lo len = BitVec.allOnes len) :
    field w lo len = field b lo len := by
  rw [← h]
  unfold field at hm ⊢
  rw [BitVec.extractLsb'_and, hm, BitVec.and_allOnes]

section
variable {w b : Word}

theorem eq_of_masked_FFFF (h : w &&& 0xFFFF = b) : w = b := by
  rw [← h]
  exact BitVec.and_allOnes.symm

theorem fieldN_of_masked_F00F (h : w &&& 0xF00F = b) : fieldN w = fieldN b := field_eq_of_masked h (by simp [field])

theorem fieldNN_of_masked_F0FF (h : w &&& 0xF0FF = b) : fieldNN w = fieldNN b := field_eq_of_masked h (by simp [field])

end

/-- Every row fixes the major opcode. -/
theorem field_row_mask (i : Instr) : field i.row.mask 12 4 = BitVec.allOnes 4 := by
  cases i <;> simp [Instr.row, field]

/-- What a row fixes (the whole word, the major opcode, or that with the low nibble or the low byte) is what the decoder reads to
find the row. -/
theorem decodeWord_of_matches_row {w : Word} {i : Instr} (h : w &&& i.row.mask = i.row.bits) :
    ∃ j, decodeWord w = some j ∧ j.row = i.row := by
  have hd : fieldD1 w = fieldD1 i.row.bits := field_eq_of_masked h (field_row_mask i)
  cases i with
  | nop | cls | ret => simp [eq_of_masked_FFFF h, Instr.row, decodeWord, fieldD1, field, decodeZero]
  | jp | call | sei | snei | ldi | addi | ldidx | jpv0 | rnd | drw =>
    rw [decodeWord, hd]
    simp [Instr.row, fieldD1, field]
  | ser | sner =>
    rw [decodeWord, hd, fieldN_of_masked_F00F h]
    simp [Instr.row, fieldD1, fieldN, field, decodeLowZero]
  | mov | or | and | xor | add | sub | shr | subn | shl =>
    rw [decodeWord, hd, fieldN_of_masked_F00F h]
    simp [Instr.row, fieldD1, fieldN, field, decodeEight]
  | skp | sknp =>
    rw [decodeWord, hd, fieldNN_of_masked_F0FF h]
    simp [Instr.row, fieldD1, fieldNN, field, decodeE]
  | lddt | wkey | stdt | stst | addidx | glyph | bcd | stm | ldm =>
    rw [decodeWord, hd, fieldNN_of_masked_F0FF h]
    simp [Instr.row, fieldD1, fieldNN, field, decodeF]

/-- A decoded word matches the row of its instruction: it is the instruction's word. -/
theorem matches_row_of_decodeWord {w : Word} {i : Instr} (h : decodeWord w = some i) :
    i.row ∈ opcodeTable ∧ w &&& i.row.mask = i.row.bits :=
  encode_of_decodeWord h ▸ Laws.EncodingMatchesRow.statement i

/-- Settles O3: each row is an instruction's, and a decoded word is that instruction's word. -/
theorem decoderFollowsOpcodeTable : Obligations.DecoderFollowsOpcodeTable := by
  intro w r hr
  obtain ⟨i, rfl⟩ := exists_row_eq hr
  refine ⟨decodeWord_of_matches_row, ?_⟩
  rintro ⟨j, hj, hrow⟩
  exact hrow ▸ (matches_row_of_decodeWord hj).2

/-- A word that matches no row decodes to nothing (R88). -/
theorem decodeWord_eq_none_of_not_legal {w : Word} (h : wordLegal w = false) : decodeWord w = none := by
  by_contra hne
  obtain ⟨i, hi⟩ := Option.ne_none_iff_exists'.1 hne
  obtain ⟨hmem, hmatch⟩ := matches_row_of_decodeWord hi
  have hlegal : wordLegal w = true := List.any_eq_true.2 ⟨i.row, hmem, beq_iff_eq.2 hmatch⟩
  cases h.symm.trans hlegal

/-! The illegal words (R88) -/

/-- A chain of minor opcodes refuses what none of them is. -/
theorem ite_some_eq_none {α : Type} {c : Prop} [Decidable c] {a : α} {o : Option α} :
    (if c then some a else o) = none ↔ ¬c ∧ o = none := by
  split_ifs with h <;> simp [h]

/-- The minor opcodes of family 8 that are no row's. -/
theorem decodeEight_eq_none {x y : Reg} {n : Nibble} :
    decodeEight x y n = none ↔ n ∈ ([0x8, 0x9, 0xA, 0xB, 0xC, 0xD, 0xF] : List Nibble) := by
  have hcompl : n ∈ ([0x8, 0x9, 0xA, 0xB, 0xC, 0xD, 0xF] : List Nibble) ↔
      n ∉ ([0x0, 0x1, 0x2, 0x3, 0x4, 0x5, 0x6, 0x7, 0xE] : List Nibble) := by
    revert n; decide
  rw [hcompl]
  simp [decodeEight, ite_some_eq_none]

/-- Settles O4: given the major opcode, both sides are about the one line of R88 for it, or about none. -/
theorem illegalWordsAreExactlyTheListed : Obligations.IllegalWordsAreExactlyTheListed := by
  intro w
  obtain hd | hA | hXI | hd | hL | hd | hd | hd := majorOpcode_cases (fieldD1 w)
  · simp [decodeWord, hd, decodeZero, ite_some_eq_none]
  · obtain hd | hd | hd | hd := hA <;> simp [decodeWord, hd]
  · obtain hd | hd | hd | hd | hd := hXI <;> simp [decodeWord, hd]
  · simp [decodeWord, hd]
  · obtain hd | hd := hL <;> simp [decodeWord, hd, decodeLowZero]
  · simp [decodeWord, hd, decodeEight_eq_none]
  · simp [decodeWord, hd, decodeE, ite_some_eq_none]
  · simp [decodeWord, hd, decodeF, ite_some_eq_none]

/-- Settles O5: each is a decoding the model already shows. -/
theorem printedWordsDecode : Obligations.PrintedWordsDecode :=
  ⟨decodeWord_call, decodeWord_sei, decodeWord_add, decodeWord_ldidx, decodeWord_drw, decodeWord_wkey⟩

/-- Settles O6: the words are the encodings of SHR and SHL, whose meanings do not use Y. -/
theorem shiftsIgnoreTheYField : Obligations.ShiftsIgnoreTheYField := fun x y _ _ =>
  ⟨decodeWord_encode (.shr x y), decodeWord_encode (.shl x y), rfl, rfl⟩

/-! Faults of a step that has an illegal word, a full stack or an empty one (60_exceptions.md R171, R174, R175) -/

/-- Settles O8: the word at PC is fetched, decodes to nothing, and the step takes that fault. -/
theorem illegalWordFaults : Obligations.IllegalWordFaults := by
  rintro s w hrun hpc rfl hw
  exact ⟨_, step_of_illegal hrun (s.fetch_ok hpc) (decodeWord_eq_none_of_not_legal hw), faultTaken_enterFault s _, rfl⟩

/-- Settles O28: the push finds no free slot, the pop no address. -/
theorem stackLimitsFault : Obligations.StackLimitsFault := fun s =>
  ⟨fun nnn h => ⟨_, exec_call_full nnn h, faultTaken_enterFault s .stackOverflow⟩,
   fun h => ⟨_, exec_ret_empty h, faultTaken_enterFault s .stackUnderflow⟩⟩

end Sys2Proof
end

section
/-! PROOFS. Control flow (40_control_flow.md): NOP, JP and JPV0 move PC alone, and a JP to its own address moves nothing. -/

namespace Sys2Proof.Machine

/-! NOP, JP and JPV0, an equation each (R100, R102, R104) -/

section
variable (s : State) (nnn : Addr)

theorem exec_nop : exec .nop s = .next s.advance := rfl

theorem exec_jp : exec (.jp nnn) s = .next (s.jump (absolute nnn)) := rfl

theorem exec_jpv0 : exec (.jpv0 nnn) s = .next (s.jump (s.indexedTarget nnn)) := rfl

/-- The indexed target is at most 255 + 4095, so its 16-bit sum does not wrap (R104). -/
theorem State.indexedTarget_toNat : (s.indexedTarget nnn).toNat = (s.reg 0).toNat + nnn.toNat := by
  have hv0 := (s.reg 0).isLt
  have hnnn := nnn.isLt
  simp only [State.indexedTarget, zext16, BitVec.toNat_add, BitVec.toNat_setWidth]
  omega

end

/-- Settles O23: NOP is the advance. -/
theorem nopOnlyAdvances : Obligations.NopOnlyAdvances := fun s =>
  ⟨decodeWord_nop, s.advance, exec_nop s, s.advance_pc, onlyRegs_jump s _⟩

/-- Settles O24: the target is its 12 bits widened with zeros. -/
theorem jpJumpsToTheTarget : Obligations.JpJumpsToTheTarget := fun nnn s =>
  ⟨decodeWord_encode (.jp nnn), s.jump (absolute nnn), exec_jp s nnn, absolute_toNat nnn, onlyRegs_jump s _⟩

/-- Settles O25: the sum of a byte and 12 bits fits in PC. -/
theorem jpvZeroAddsVZero : Obligations.JpvZeroAddsVZero := fun nnn s =>
  ⟨decodeWord_encode (.jpv0 nnn), s.jump (s.indexedTarget nnn), exec_jpv0 s nnn, s.indexedTarget_toNat nnn,
    onlyRegs_jump s _⟩

/-! A JP to its own address (R105, 70_reset_and_hazards.md R214) -/

theorem State.jump_pc_self (s : State) : s.jump s.pc = s := rfl

/-- Where the fetched word is a JP, the offered end of a run compares its target with PC. -/
theorem State.atSelfJump_iff_of_jp {s : State} {w : Word} {nnn : Addr} (hf : s.fetch = .ok w)
    (hd : decodeWord w = some (.jp nnn)) : s.atSelfJump = true ↔ absolute nnn = s.pc := by
  simp [State.atSelfJump, hf, hd]

/-- Settles O30: the fetched word is the JP, and its target is the PC the step began with. -/
theorem selfJumpIsAFixedPoint : Obligations.SelfJumpIsAFixedPoint := by
  intro s nnn hrun hpc hword hself
  have hf : s.fetch = .ok (formatA 0x1 nnn) := (s.fetch_ok hpc).trans (congrArg Except.ok hword)
  have hd : decodeWord (formatA 0x1 nnn) = some (.jp nnn) := decodeWord_encode (.jp nnn)
  have htarget : absolute nnn = s.pc := BitVec.eq_of_toNat_eq ((absolute_toNat nnn).trans hself)
  refine ⟨?_, (State.atSelfJump_iff_of_jp hf hd).2 htarget⟩
  rw [step_of_decoded hrun hf hd, exec_jp, htarget, s.jump_pc_self]

end Sys2Proof.Machine
end

section
/-! PROOFS. Skips (41_skips.md, 45_keypad_timers.md R160, R161): the six skips are `State.skipIf` on the advanced state, each with
its own condition. -/

namespace Sys2Proof.Machine

/-- A skip goes four on from the instruction's own address, and two on when it does not skip (R114). -/
theorem State.advance_skipIf_pc (s : State) (c : Bool) :
    (s.advance.skipIf c).pc = if c then s.pc + 4 else s.pc + 2 := by
  rw [State.skipIf_pc, State.advance_pc, BitVec.add_assoc]
  rfl

/-! The six skips, an equation each (R110 to R113, R160, R161) -/

section
variable (s : State) (x y : Reg) (nn : Byte)

theorem exec_sei : exec (.sei x nn) s = .next (s.advance.skipIf (s.reg x == nn)) := rfl

theorem exec_snei : exec (.snei x nn) s = .next (s.advance.skipIf (s.reg x != nn)) := rfl

theorem exec_ser : exec (.ser x y) s = .next (s.advance.skipIf (s.reg x == s.reg y)) := rfl

theorem exec_sner : exec (.sner x y) s = .next (s.advance.skipIf (s.reg x != s.reg y)) := rfl

variable {s x} (h : (s.reg x).toNat < 16)

theorem exec_skp : exec (.skp x) s = .next (s.advance.skipIf s.key[(s.reg x).toNat]) := by
  change execSkp x s = _
  rw [execSkp, State.keyPressed_ok s x h]
  rfl

theorem exec_sknp : exec (.sknp x) s = .next (s.advance.skipIf !s.key[(s.reg x).toNat]) := by
  change execSknp x s = _
  rw [execSknp, State.keyPressed_ok s x h]
  rfl

end

/-! What a skip leaves, by the condition it tests -/

section
variable {s : State} {i : Instr} {c : Bool} {p : Prop} [Decidable p]

/-- A skip when `p` holds writes PC alone. -/
theorem exists_next_of_skip_if (h : exec i s = .next (s.advance.skipIf c)) (hc : c = true ↔ p) :
    ∃ t, exec i s = .next t ∧ OnlyRegs s t [] ∧ t.pc = if p then s.pc + 4 else s.pc + 2 :=
  ⟨_, h, onlyRegs_skipIf s c, (s.advance_skipIf_pc c).trans (if_congr hc rfl rfl)⟩

/-- A skip when `p` does not hold writes PC alone. -/
theorem exists_next_of_skip_unless (h : exec i s = .next (s.advance.skipIf c)) (hc : c = true ↔ ¬p) :
    ∃ t, exec i s = .next t ∧ OnlyRegs s t [] ∧ t.pc = if p then s.pc + 2 else s.pc + 4 := by
  obtain ⟨t, ht, honly, hpc⟩ := exists_next_of_skip_if h hc
  exact ⟨t, ht, honly, hpc.trans (ite_not p _ _)⟩

end

/-- Settles O31: SEI and SER skip when the two bytes are equal, SNEI and SNER when they are not. -/
theorem registerSkipsAdvanceByFourOrTwo : Obligations.RegisterSkipsAdvanceByFourOrTwo := fun x y nn s =>
  ⟨⟨decodeWord_encode (.sei x nn), exists_next_of_skip_if (exec_sei s x nn) beq_iff_eq⟩,
   ⟨decodeWord_encode (.snei x nn), exists_next_of_skip_unless (exec_snei s x nn) bne_iff_ne⟩,
   ⟨decodeWord_encode (.ser x y), exists_next_of_skip_if (exec_ser s x y) beq_iff_eq⟩,
   ⟨decodeWord_encode (.sner x y), exists_next_of_skip_unless (exec_sner s x y) bne_iff_ne⟩⟩

/-- Settles O50: SKP skips when the latch is pressed, SKNP when it is not. -/
theorem keySkipsTestTheLatch : Obligations.KeySkipsTestTheLatch := fun x _ h =>
  ⟨⟨decodeWord_encode (.skp x), exists_next_of_skip_if (exec_skp h) Iff.rfl⟩,
   ⟨decodeWord_encode (.sknp x), exists_next_of_skip_unless (exec_sknp h) Bool.not_iff_not⟩⟩

end Sys2Proof.Machine
end

section
/-! PROOFS. Loads, sums, logic and shifts (42_alu.md): an instruction writes one byte to `V[X]`, or a byte and a flag. ADD, SUB and
SUBN write the flag second, so with X = F it is the flag that stays; SHR and SHL write it first and shift what `V[X]` then holds,
so with X = F it is the shifted flag (R133). -/

namespace Sys2Proof.Machine

/-! Flags and results as naturals -/

section
variable (a b : Byte) (c : Bool)

theorem flagByte_toNat : (flagByte c).toNat = c.toNat := by cases c <;> rfl

/-- The carry of R126. -/
theorem carry_toNat : (carry a b).toNat = if 255 < a.toNat + b.toNat then 1 else 0 := by
  unfold carry
  split_ifs with h <;> simp [h]

/-- Not-borrow, as R127 and R129 write it. -/
theorem notBorrow_toNat : (notBorrow a b).toNat = if a.toNat < b.toNat then 0 else 1 := by
  unfold notBorrow
  split_ifs with h <;> simp [h]

theorem lowBit_toNat : (lowBit a).toNat = a.toNat % 2 :=
  (Nat.toNat_testBit a.toNat 0).trans (by rw [pow_zero, Nat.div_one])

theorem highBit_toNat : (highBit a).toNat = a.toNat / 128 := by
  have ha := a.isLt
  calc (highBit a).toNat = a.toNat / 128 % 2 := Nat.toNat_testBit a.toNat 7
    _ = a.toNat / 128 := Nat.mod_eq_of_lt (by omega)

theorem toNat_sub_byte : (a - b).toNat = (a.toNat + 256 - b.toNat) % 256 := by
  have hb := b.isLt
  rw [BitVec.toNat_sub]
  congr 1
  omega

theorem toNat_shiftRight_one : (a >>> 1).toNat = a.toNat / 2 := Nat.shiftRight_eq_div_pow a.toNat 1

theorem toNat_shiftLeft_one : (a <<< 1).toNat = 2 * a.toNat % 256 := by
  rw [BitVec.toNat_shiftLeft, Nat.shiftLeft_eq, Nat.mul_comm]

/-- A flag shifted to the right is no bit any more. -/
theorem flagByte_shiftRight_toNat : (flagByte c >>> 1).toNat = 0 := by cases c <;> rfl

/-- A flag shifted to the left is bit 1. -/
theorem flagByte_shiftLeft_toNat : (flagByte c <<< 1).toNat = 2 * c.toNat := by cases c <;> rfl

/-- Bit 7, taken as a flag and shifted to the left, is 2 for the bytes that have it (R130, R133). -/
theorem highBit_shiftLeft_toNat : (flagByte (highBit a) <<< 1).toNat = if 128 ≤ a.toNat then 2 else 0 := by
  have ha := a.isLt
  rw [flagByte_shiftLeft_toNat, highBit_toNat]
  split_ifs <;> omega

end

/-! One byte written to `V[X]` (R120 to R125) -/

section
variable (s : State) (x y : Reg) (nn : Byte)

theorem exec_ldi : exec (.ldi x nn) s = .next (s.advance.setReg x nn) := rfl

theorem exec_addi : exec (.addi x nn) s = .next (s.advance.setReg x (s.reg x + nn)) := rfl

theorem exec_mov : exec (.mov x y) s = .next (s.advance.setReg x (s.reg y)) := rfl

theorem exec_or : exec (.or x y) s = .next (s.advance.setReg x (s.reg x ||| s.reg y)) := rfl

theorem exec_and : exec (.and x y) s = .next (s.advance.setReg x (s.reg x &&& s.reg y)) := rfl

theorem exec_xor : exec (.xor x y) s = .next (s.advance.setReg x (s.reg x ^^^ s.reg y)) := rfl

end

section
variable {s : State} {i : Instr} {x : Reg} {b : Byte}

/-- One register written: the byte is in it. -/
theorem exists_next_of_setReg (h : exec i s = .next (s.advance.setReg x b)) :
    ∃ t, exec i s = .next t ∧ t.pc = s.pc + 2 ∧ t.reg x = b ∧ OnlyRegs s t [x] :=
  ⟨_, h, s.advance_pc, State.setReg_reg_same .., onlyRegs_setReg s x b⟩

/-- One register written, read bit by bit. -/
theorem exists_next_of_setReg_bits {bit : Nat → Bool} (h : exec i s = .next (s.advance.setReg x b))
    (hb : ∀ k, b.getLsbD k = bit k) :
    ∃ t, exec i s = .next t ∧ t.pc = s.pc + 2 ∧ (∀ k, (t.reg x).getLsbD k = bit k) ∧ OnlyRegs s t [x] := by
  obtain ⟨t, ht, hpc, rfl, honly⟩ := exists_next_of_setReg h
  exact ⟨t, ht, hpc, hb, honly⟩

end

/-- Settles O32: the byte written is NN, or the other register's. -/
theorem loadsSetTheDestination : Obligations.LoadsSetTheDestination := fun x y nn s =>
  ⟨⟨decodeWord_encode (.ldi x nn), exists_next_of_setReg (exec_ldi s x nn)⟩,
   ⟨decodeWord_encode (.mov x y), exists_next_of_setReg (exec_mov s x y)⟩⟩

/-- Settles O33: the byte written is the sum of bytes, which wraps; VF is in the frame unless it is the destination. -/
theorem addiWrapsWithoutFlag : Obligations.AddiWrapsWithoutFlag := by
  intro x nn s
  obtain ⟨t, ht, hpc, hreg, honly⟩ := exists_next_of_setReg (exec_addi s x nn)
  exact ⟨decodeWord_encode (.addi x nn), t, ht, hpc, hreg ▸ BitVec.toNat_add .., honly⟩

/-- Settles O34: the three operations on bytes are bitwise, and VF is in the frame unless it is the destination. -/
theorem logicIsBitwise : Obligations.LogicIsBitwise := fun x y s =>
  ⟨⟨decodeWord_encode (.or x y), exists_next_of_setReg_bits (exec_or s x y) fun _ => BitVec.getLsbD_or⟩,
   ⟨decodeWord_encode (.and x y), exists_next_of_setReg_bits (exec_and s x y) fun _ => BitVec.getLsbD_and⟩,
   ⟨decodeWord_encode (.xor x y), exists_next_of_setReg_bits (exec_xor s x y) fun _ => BitVec.getLsbD_xor⟩⟩

/-! A result, then a flag (R126, R127, R129) -/

/-- The state ADD, SUB and SUBN leave: PC advanced, the result in `V[X]`, then the flag in VF. -/
def State.resultThenFlag (s : State) (x : Reg) (b : Byte) (c : Bool) : State := (s.advance.setReg x b).setFlag c

section
variable (s : State) (x y : Reg)

theorem exec_add : exec (.add x y) s = .next (s.resultThenFlag x (s.reg x + s.reg y) (carry (s.reg x) (s.reg y))) := rfl

theorem exec_sub :
    exec (.sub x y) s = .next (s.resultThenFlag x (s.reg x - s.reg y) (notBorrow (s.reg x) (s.reg y))) := rfl

theorem exec_subn :
    exec (.subn x y) s = .next (s.resultThenFlag x (s.reg y - s.reg x) (notBorrow (s.reg y) (s.reg x))) := rfl

end

section
variable {s : State} {i : Instr} {x : Reg} {b : Byte} {c : Bool} {result flag : Nat}

/-- A result and then a flag: the flag is in VF whatever X is, and the result in `V[X]` unless X = F. -/
theorem exists_next_of_resultThenFlag (h : exec i s = .next (s.resultThenFlag x b c)) (hb : b.toNat = result)
    (hc : c.toNat = flag) :
    ∃ t, exec i s = .next t ∧ t.pc = s.pc + 2 ∧ (x ≠ vf → (t.reg x).toNat = result) ∧ (t.reg vf).toNat = flag ∧
      OnlyRegs s t [x, vf] := by
  refine ⟨_, h, s.advance_pc, fun hx => ?_, ?_, onlyRegs_setReg_setReg s x vf b _ _ (by simp) (by simp)⟩
  · rw [State.resultThenFlag, State.reg_setFlag, if_neg hx, State.setReg_reg_same, hb]
  · rw [State.resultThenFlag, State.setFlag_reg_vf, flagByte_toNat, hc]

end

/-- Settles O35: the sum of bytes wraps, and the flag is the carry of the exact sum. -/
theorem addLeavesSumAndCarry : Obligations.AddLeavesSumAndCarry := fun x y s =>
  ⟨decodeWord_encode (.add x y), exists_next_of_resultThenFlag (exec_add s x y) (BitVec.toNat_add ..) (carry_toNat ..)⟩

/-- Settles O36: the difference of bytes wraps, and the flag is 0 exactly when V[X] is the smaller. -/
theorem subLeavesDifferenceAndNotBorrow : Obligations.SubLeavesDifferenceAndNotBorrow := fun x y s =>
  ⟨decodeWord_encode (.sub x y), exists_next_of_resultThenFlag (exec_sub s x y) (toNat_sub_byte ..) (notBorrow_toNat ..)⟩

/-- Settles O37: as SUB, with the operands exchanged. -/
theorem subnLeavesDifferenceAndNotBorrow : Obligations.SubnLeavesDifferenceAndNotBorrow := fun x y s =>
  ⟨decodeWord_encode (.subn x y), exists_next_of_resultThenFlag (exec_subn s x y) (toNat_sub_byte ..) (notBorrow_toNat ..)⟩

/-! A flag, then a shift of what `V[X]` then holds (R128, R130, R133) -/

/-- The state SHR and SHL leave: PC advanced, the flag in VF, then `V[X]` as that left it, shifted. -/
def State.flagThenShift (s : State) (x : Reg) (c : Bool) (shift : Byte → Byte) : State :=
  (s.advance.setFlag c).setReg x (shift ((s.advance.setFlag c).reg x))

section
variable (s : State) (x y : Reg)

theorem exec_shr : exec (.shr x y) s = .next (s.flagThenShift x (lowBit (s.reg x)) (· >>> 1)) := rfl

theorem exec_shl : exec (.shl x y) s = .next (s.flagThenShift x (highBit (s.reg x)) (· <<< 1)) := rfl

end

section
variable {s : State} {i : Instr} {x : Reg} {c : Bool} {shift : Byte → Byte} {result flag both : Nat}

/-- Where X is not F, `V[X]` is its old value shifted, and VF the flag; where X = F, VF is the flag shifted. -/
theorem exists_next_of_flagThenShift (h : exec i s = .next (s.flagThenShift x c shift))
    (hresult : (shift (s.reg x)).toNat = result) (hflag : c.toNat = flag) (hboth : (shift (flagByte c)).toNat = both) :
    ∃ t, exec i s = .next t ∧ t.pc = s.pc + 2 ∧ (x ≠ vf → (t.reg x).toNat = result ∧ (t.reg vf).toNat = flag) ∧
      (x = vf → (t.reg vf).toNat = both) ∧ OnlyRegs s t [x, vf] := by
  refine ⟨_, h, s.advance_pc, fun hx => ⟨?_, ?_⟩, ?_, onlyRegs_setReg_setReg s vf x _ _ _ (by simp) (by simp)⟩
  · rw [State.flagThenShift, State.setReg_reg_same, State.reg_setFlag, if_neg hx, State.advance_reg, hresult]
  · rw [State.flagThenShift, State.setReg_reg_other _ _ _ _ hx.symm, State.setFlag_reg_vf, flagByte_toNat, hflag]
  · rintro rfl
    rw [State.flagThenShift, State.setReg_reg_same, State.setFlag_reg_vf, hboth]

end

/-- Settles O38: the flag is the bit shifted out, and with X = F shifting it leaves nothing. -/
theorem shrHalvesAndLeavesTheLowBit : Obligations.ShrHalvesAndLeavesTheLowBit := fun x y s =>
  ⟨decodeWord_encode (.shr x y), exists_next_of_flagThenShift (exec_shr s x y) (toNat_shiftRight_one _) (lowBit_toNat _)
    (flagByte_shiftRight_toNat _)⟩

/-- Settles O39: the flag is the bit shifted out, and with X = F shifting it leaves bit 1. -/
theorem shlDoublesAndLeavesTheHighBit : Obligations.ShlDoublesAndLeavesTheHighBit := fun x y s =>
  ⟨decodeWord_encode (.shl x y), exists_next_of_flagThenShift (exec_shl s x y) (toNat_shiftLeft_one _) (highBit_toNat _)
    (highBit_shiftLeft_toNat _)⟩

end Sys2Proof.Machine
end

section
/-! PROOFS. The index register (43_index_memory.md R140 to R142): LDIDX, ADDIDX and GLYPH are `State.setIndex` on the advanced
state, each with its own value. -/

namespace Sys2Proof.Machine

section
variable (s : State) (x : Reg) (nnn : Addr)

theorem exec_ldidx : exec (.ldidx nnn) s = .next (s.advance.setIndex (absolute nnn)) := rfl

theorem exec_addidx : exec (.addidx x) s = .next (s.advance.setIndex (s.indexPlus x)) := rfl

theorem exec_glyph : exec (.glyph x) s = .next (s.advance.setIndex (s.glyphAddr x)) := rfl

/-- The sum of `I` and a byte wraps at the 16 bits of `I` (R141). -/
theorem State.indexPlus_toNat : (s.indexPlus x).toNat = (s.i.toNat + (s.reg x).toNat) % 65536 := by
  rw [State.indexPlus, BitVec.toNat_add, BitVec.toNat_setWidth_of_le (by decide)]

/-- The product is at most 5 * 255, so its 16 bits are exact (R142). -/
theorem State.glyphAddr_toNat : (s.glyphAddr x).toNat = 5 * (s.reg x).toNat := by
  have hlt := (s.reg x).isLt
  rw [State.glyphAddr, BitVec.toNat_mul, BitVec.toNat_setWidth_of_le (by decide)]
  exact Nat.mod_eq_of_lt (show 5 * (s.reg x).toNat < 65536 by omega)

theorem onlyIndex_setIndex (w : Word) : OnlyIndex s (s.advance.setIndex w) :=
  ⟨fun _ _ => rfl, fun _ => rfl, ⟨rfl, rfl⟩, rfl, rfl, rfl, rfl, rfl⟩

end

/-- An instruction that is an advance and a write of `I` leaves the value in `I` and touches nothing else but PC. -/
theorem exists_next_of_setIndex {s : State} {i : Instr} {w : Word} {value : Nat}
    (h : exec i s = .next (s.advance.setIndex w)) (hw : w.toNat = value) :
    ∃ t, exec i s = .next t ∧ t.pc = s.pc + 2 ∧ t.i.toNat = value ∧ OnlyIndex s t :=
  ⟨_, h, s.advance_pc, hw, onlyIndex_setIndex s w⟩

/-- Settles O41: the values written are the 12 bits widened, the wrapped sum and the exact product. -/
theorem indexInstructionsWriteI : Obligations.IndexInstructionsWriteI := fun nnn x s =>
  ⟨⟨decodeWord_encode (.ldidx nnn), exists_next_of_setIndex (exec_ldidx s nnn) (absolute_toNat nnn)⟩,
   ⟨decodeWord_encode (.addidx x), exists_next_of_setIndex (exec_addidx s x) (s.indexPlus_toNat x)⟩,
   ⟨decodeWord_encode (.glyph x), exists_next_of_setIndex (exec_glyph s x) (s.glyphAddr_toNat x)⟩⟩

end Sys2Proof.Machine
end

section
/-! PROOFS. The display (44_display.md): CLS clears it; DRW inverts the covered pixels and leaves in VF whether one of them was on,
and a sprite covers the same pixels when it is drawn again. -/

namespace Sys2Proof.Machine

/-! CLS (R150) -/

theorem exec_cls (s : State) : exec .cls s = .next (s.advance.setDisp Display.clear) := rfl

/-- Settles O46: the display is the clear one, and no register is written. -/
theorem clsClearsEveryPixel : Obligations.ClsClearsEveryPixel := fun s =>
  ⟨decodeWord_cls, _, exec_cls s, s.advance_pc, Display.pixel_clear,
    fun _ _ => rfl, rfl, fun _ => rfl, ⟨rfl, rfl⟩, rfl, rfl, rfl, rfl⟩

/-! A sprite drawn (R151 to R154) -/

section
variable (s : State) (x y : Reg) (n : Nibble)

/-- The state DRW leaves when its rows are inside memory: PC advanced, the sprite drawn, then the collision in VF. -/
def State.withSprite : State := (s.advance.setDisp (s.drawn x y n).1).setFlag (s.drawn x y n).2

/-- DRW writes PC, the display and VF, and nothing else. -/
theorem onlyDisp_withSprite : OnlyDisp s (s.withSprite x y n) [vf] := by
  refine ⟨fun r hr => ?_, rfl, fun _ => rfl, ⟨rfl, rfl⟩, rfl, rfl, rfl, rfl⟩
  rw [State.withSprite, State.reg_setFlag, if_neg (List.ne_of_not_mem_cons hr), State.setDisp_reg, State.advance_reg]

theorem State.withSprite_reg_vf : (s.withSprite x y n).reg vf = flagByte (s.drawn x y n).2 := State.setFlag_reg_vf ..

/-- No rows: nothing is drawn, and nothing is erased (R154). -/
theorem State.drawn_zero : s.drawn x y 0 = (s.disp, false) := rfl

variable {s x y n}

/-- With its rows inside memory, or with none, DRW draws its sprite. -/
theorem exec_drw_inside (h : n.toNat = 0 ∨ s.i.toNat + n.toNat - 1 ≤ 4095) :
    exec (.drw x y n) s = .next (s.withSprite x y n) := by
  obtain h0 | hin := h
  · change complete s (guarded (rangeFault (s.ea 0) n.toNat) (s.withSprite x y n)) = _
    rw [h0, rangeFault_zero, guarded_none, complete_ok]
  · exact complete_guarded_inside (n := n.toNat) (by omega)

/-- What drawing the bytes read at `I` does to the covered pixels, to the others, and to the note of an erased one. -/
theorem State.drawn_spec :
    (∀ px py, SpriteCovers s x y n px py → (s.drawn x y n).1.pixel px py = !s.disp.pixel px py) ∧
    (∀ px py, ¬ SpriteCovers s x y n px py → (s.drawn x y n).1.pixel px py = s.disp.pixel px py) ∧
    ((s.drawn x y n).2 = true ↔ ∃ px py, SpriteCovers s x y n px py ∧ s.disp.pixel px py = true) := by
  have hlen : (s.mem.readBytes (s.ea 0) n.toNat).length ≤ 32 := by
    have hn := n.isLt
    rw [Memory.readBytes_length]
    omega
  obtain ⟨hcov, hkeep, herased⟩ := drawRows_spec (s.reg x).toNat (s.reg y).toNat _ 0 hlen (s.disp, false)
  simp only [spriteCovers_iff]
  exact ⟨hcov, hkeep, herased.trans (or_iff_right Bool.false_ne_true)⟩

theorem State.withSprite_pixel_covered {px : Fin 64} {py : Fin 32} (h : SpriteCovers s x y n px py) :
    (s.withSprite x y n).disp.pixel px py = !s.disp.pixel px py := State.drawn_spec.1 px py h

theorem State.withSprite_pixel_kept {px : Fin 64} {py : Fin 32} (h : ¬ SpriteCovers s x y n px py) :
    (s.withSprite x y n).disp.pixel px py = s.disp.pixel px py := State.drawn_spec.2.1 px py h

theorem State.drawn_erases_iff :
    (s.drawn x y n).2 = true ↔ ∃ px py, SpriteCovers s x y n px py ∧ s.disp.pixel px py = true := State.drawn_spec.2.2

theorem flagByte_eq_one_iff {c : Bool} : flagByte c = 1 ↔ c = true := by cases c <;> decide

end

/-- Settles O47: the sprite is drawn at the old coordinates, and the note of an erased pixel is what VF holds last, also with X = F
or Y = F. -/
theorem drwXorsTheSprite : Obligations.DrwXorsTheSprite := by
  intro x y n s h
  refine ⟨decodeWord_encode (.drw x y n), s.withSprite x y n, exec_drw_inside h, s.advance_pc,
    fun _ _ => State.withSprite_pixel_covered, fun _ _ => State.withSprite_pixel_kept, fun hon => ?_, fun hoff => ?_,
    onlyDisp_withSprite s x y n⟩
  · rw [State.withSprite_reg_vf, State.drawn_erases_iff.2 hon, flagByte_true]
  · rw [State.withSprite_reg_vf, Bool.eq_false_iff.2 (mt State.drawn_erases_iff.1 hoff), flagByte_false]

/-- Settles O48: there is no row to check or to draw, and VF is the flag of nothing erased. -/
theorem drwOfNoRowsClearsTheFlag : Obligations.DrwOfNoRowsClearsTheFlag := by
  intro x y s
  refine ⟨s.withSprite x y 0, exec_drw_inside (.inl rfl), s.advance_pc, ?_, ?_, onlyDisp_withSprite s x y 0⟩
  · rw [State.withSprite_reg_vf, State.drawn_zero, flagByte_false]
  · rw [State.withSprite, State.setFlag_disp, State.setDisp_disp, State.drawn_zero]

/-! The same sprite drawn again (R155) -/

section
variable {s : State} {x y : Reg} {n : Nibble} {px : Fin 64} {py : Fin 32}

/-- A sprite drawn from other registers than VF covers the same pixels afterwards: `I`, memory and the coordinates are kept. -/
theorem spriteCovers_withSprite (hx : x ≠ vf) (hy : y ≠ vf) :
    SpriteCovers (s.withSprite x y n) x y n px py ↔ SpriteCovers s x y n px py := by
  obtain ⟨hregs, hi, hmem, -, -⟩ := onlyDisp_withSprite s x y n
  have hrx := hregs x (mt List.mem_singleton.1 hx)
  have hry := hregs y (mt List.mem_singleton.1 hy)
  simp only [SpriteCovers, State.ea, hi, hmem _, hrx, hry]

/-- Each covered pixel is inverted twice. -/
theorem withSprite_withSprite_disp (hx : x ≠ vf) (hy : y ≠ vf) :
    ((s.withSprite x y n).withSprite x y n).disp = s.disp := by
  refine Display.ext_pixel fun px py => ?_
  by_cases h : SpriteCovers s x y n px py
  · rw [State.withSprite_pixel_covered ((spriteCovers_withSprite hx hy).2 h), State.withSprite_pixel_covered h, Bool.not_not]
  · rw [State.withSprite_pixel_kept (mt (spriteCovers_withSprite hx hy).1 h), State.withSprite_pixel_kept h]

/-- A pixel that drawing turned on is a covered one that is on afterwards. -/
theorem lit_by_sprite_iff :
    s.disp.pixel px py = false ∧ (s.withSprite x y n).disp.pixel px py = true ↔
      SpriteCovers s x y n px py ∧ (s.withSprite x y n).disp.pixel px py = true := by
  by_cases h : SpriteCovers s x y n px py
  · simp [h, State.withSprite_pixel_covered h]
  · simp [h, State.withSprite_pixel_kept h]

end

/-- Settles O49: the second draw erases the covered pixels that are on after the first, which are those the first turned on. -/
theorem drawingTwiceRestoresTheDisplay : Obligations.DrawingTwiceRestoresTheDisplay := by
  intro x y n s hx hy h
  have hi : (s.withSprite x y n).i = s.i := rfl
  refine ⟨s.withSprite x y n, (s.withSprite x y n).withSprite x y n, exec_drw_inside h, exec_drw_inside (hi ▸ h),
    withSprite_withSprite_disp hx hy, ?_⟩
  rw [State.withSprite_reg_vf, flagByte_eq_one_iff, State.drawn_erases_iff]
  simp only [spriteCovers_withSprite hx hy, lit_by_sprite_iff]

end Sys2Proof.Machine
end

section
/-! PROOFS. Keys (45_keypad_timers.md R163, R176): a key index above 15 is a fault of SKP and SKNP, and WKEY takes the least pressed
key or goes back to its own address. -/

namespace Sys2Proof.Machine

section
variable {s : State} (x : Reg)

/-- Whatever a step does with the key `V[X]` names, an index above 15 is the fault it takes (R176). -/
theorem faultTaken_of_keyPressed (h : 15 < (s.reg x).toNat) (g : Bool → State) :
    ∃ t, complete s ((s.keyPressed x).map g) = .next t ∧ FaultTaken s t 6 ((s.reg x).setWidth 16) := by
  refine ⟨s.enterFault (.keyIndexOutOfRange (s.reg x)), ?_, faultTaken_enterFault s _⟩
  rw [State.keyPressed_error s x h]
  rfl

/-- A WKEY that waits goes back over its own advance, so it leaves the state it began in. -/
theorem exec_wkey_waiting_self (hk : s.lowestKey = none) : exec (.wkey x) s = .next s := by
  rw [exec_wkey_waiting x hk, State.advance_pc, BitVec.add_sub_cancel]
  rfl

/-- The number of a key fits in a byte. -/
theorem key_toNat (k : Fin 16) : (BitVec.ofNat 8 k.val).toNat = k.val := Nat.mod_eq_of_lt (k.isLt.trans (by decide))

end

/-- Settles O51: both read the key first, and the index is recorded as it stands. -/
theorem keyIndexAboveFifteenFaults : Obligations.KeyIndexAboveFifteenFaults := fun x s h =>
  ⟨faultTaken_of_keyPressed x h fun k => s.advance.skipIf k, faultTaken_of_keyPressed x h fun k => s.advance.skipIf !k⟩

/-- Settles O52: the least pressed key is what the search finds, and with none pressed the step goes back to where it began. -/
theorem wkeyTakesTheLeastKeyOrWaits : Obligations.WkeyTakesTheLeastKeyOrWaits := by
  refine fun x s => ⟨decodeWord_encode (.wkey x), fun k hk hmin => ?_, fun hnone => ?_⟩
  · obtain ⟨t, ht, hpc, hreg, honly⟩ := exists_next_of_setReg (exec_wkey_pressed x (s.lowestKey_some k hk hmin))
    exact ⟨t, ht, hpc, hreg ▸ key_toNat k, honly⟩
  · exact exec_wkey_waiting_self x (s.lowestKey_none hnone)

end Sys2Proof.Machine
end

section
/-! PROOFS. Exceptions and the host's operations (60_exceptions.md): a faulted machine waits for a reset, which instructions fault
and with which cause, a tick of a running machine, and `setKey`. -/

namespace Sys2Proof.Machine

/-! The faulted machine (R178) -/

section
variable {s : State} (hv : s.fault.valid = true)
include hv

theorem State.afterStep_faulted : s.afterStep = s := by simp [State.afterStep, step_of_faulted hv]

theorem State.stepStatus_faulted : s.stepStatus = .fault s.fault.cause := by simp [State.stepStatus, hv]

theorem State.soundExpire_faulted : s.soundExpire = false := by simp [State.soundExpire, hv]

/-- A step finds the latch set, and the other operations but reset and a new machine are refused or only read. -/
theorem Operation.apply_faulted {op : Operation} (hreset : op ≠ .reset) (hconstruct : op ≠ .construct) :
    (op.apply s).1 = s := by
  cases op with
  | construct => exact absurd rfl hconstruct
  | reset => exact absurd rfl hreset
  | load bytes => exact congrArg Prod.fst (s.load_rejected bytes (.inl hv))
  | step => exact State.afterStep_faulted hv
  | tickTimers => exact s.tickTimers_faulted hv
  | getDisplay => rfl
  | setKey k pressed => exact s.setKey_refused k pressed (.inl hv)

end

theorem State.hostReset_running (s : State) : s.hostReset.running := rfl

/-- Settles O10: every operation but the two that make the machine new is refused, and the step's status is the latch's. -/
theorem faultedStateIsAbsorbing : Obligations.FaultedStateIsAbsorbing := by
  intro s hv
  refine ⟨step_of_faulted hv, fun _ => Operation.apply_faulted hv, ?_, fun bytes => ?_, rfl, ?_, s.hostReset_running,
    s.hostReset_running⟩
  · simp only [Operation.apply, State.afterStep_faulted hv, State.stepStatus_faulted hv]
  · simp only [Operation.apply, s.load_rejected bytes (.inl hv)]
  · simp only [Operation.apply, State.soundExpire_faulted hv]

/-! Which instructions fault (R170, R180) -/

section
variable {s t u : State}

theorem State.advance_skipIf_running (hrun : s.running) (c : Bool) : (s.advance.skipIf c).running := by
  rw [State.running, State.skipIf_fault, State.advance_fault, hrun]

/-- A range check in front of a state that runs can only leave the fault of memory out of range. -/
theorem cause_of_rangeFault {base n : Nat} (h : complete s (guarded (rangeFault base n) u) = .next t) (hu : u.running)
    (ht : ¬ t.running) : t.fault.cause = 3 := by
  obtain ⟨-, rfl⟩ | ⟨f, hf, rfl⟩ := complete_guarded h
  · exact absurd hu ht
  · obtain ⟨-, hr⟩ | ⟨-, -, hr⟩ := rangeFault_cases base n <;> cases hr.symm.trans hf
    rfl

/-- A skip on a key can only leave the fault of a key index out of range. -/
theorem cause_of_keyPressed {x : Reg} {c : Bool → Bool} (hrun : s.running)
    (h : complete s ((s.keyPressed x).map fun k => s.advance.skipIf (c k)) = .next t) (ht : ¬ t.running) :
    t.fault.cause = 6 := by
  by_cases hk : (s.reg x).toNat < 16
  · rw [State.keyPressed_ok s x hk] at h
    cases h
    exact absurd (State.advance_skipIf_running hrun _) ht
  · rw [State.keyPressed_error s x (Nat.not_lt.mp hk)] at h
    cases h
    rfl

end

/-- Settles O13: each instruction either leaves the latch as it is, or has one check in front of its effects. -/
theorem onlyEightInstructionsFault : Obligations.OnlyEightInstructionsFault := by
  intro i s t hrun h ht
  cases i with
  | nop | cls | jp | jpv0 | ldidx | addidx | glyph | lddt | stdt | stst => cases h; exact absurd hrun ht
  | ldi | addi | mov | or | and | xor | add | sub | shr | subn | shl | rnd => cases h; exact absurd hrun ht
  | sei | snei | ser | sner => cases h; exact absurd (State.advance_skipIf_running hrun _) ht
  | wkey x =>
    cases hk : s.lowestKey with
    | some k => cases (exec_wkey_pressed x hk).symm.trans h; exact absurd hrun ht
    | none => cases (exec_wkey_waiting x hk).symm.trans h; exact absurd hrun ht
  | call nnn =>
    obtain ⟨_, h'⟩ | ⟨-, h'⟩ := exec_call_cases s nnn <;> cases h'.symm.trans h
    · exact absurd hrun ht
    · exact .inl ⟨rfl, nnn, rfl⟩
  | ret =>
    obtain ⟨k, hk, -, h'⟩ | ⟨-, h'⟩ := exec_ret_cases s <;> cases h'.symm.trans h
    · exact absurd hrun ht
    · exact .inr (.inl ⟨rfl, rfl⟩)
  | drw x y n => exact .inr (.inr (.inl ⟨cause_of_rangeFault h hrun ht, .inl ⟨x, y, n, rfl⟩⟩))
  | bcd x => exact .inr (.inr (.inl ⟨cause_of_rangeFault h hrun ht, .inr ⟨x, .inl rfl⟩⟩))
  | stm x => exact .inr (.inr (.inl ⟨cause_of_rangeFault h hrun ht, .inr ⟨x, .inr (.inl rfl)⟩⟩))
  | ldm x =>
    have hloaded := (congrArg FaultLatch.valid (quiet_loaded s x).fault).trans hrun
    exact .inr (.inr (.inl ⟨cause_of_rangeFault h hloaded ht, .inr ⟨x, .inr (.inr rfl)⟩⟩))
  | skp x => exact .inr (.inr (.inr ⟨cause_of_keyPressed (c := id) hrun h ht, x, .inl rfl⟩))
  | sknp x => exact .inr (.inr (.inr ⟨cause_of_keyPressed (c := not) hrun h ht, x, .inr rfl⟩))

/-! A tick (R184, R186) -/

section
variable {s : State} (hrun : s.running)
include hrun

theorem State.soundExpire_iff : s.soundExpire = true ↔ s.st = 1 := by simp [State.soundExpire, hrun]

theorem onlyTimers_tickTimers : OnlyTimers s s.tickTimers := by
  rw [s.tickTimers_running hrun]
  exact ⟨fun _ _ => rfl, rfl, fun _ => rfl, ⟨rfl, rfl⟩, rfl, rfl, rfl⟩

end

/-- Settles O54: a tick counts both timers down and writes nothing else. -/
theorem tickLowersBothTimers : Obligations.TickLowersBothTimers := by
  intro s hrun
  have htick := s.tickTimers_running hrun
  refine ⟨?_, ?_, ?_, ?_, ?_, onlyTimers_tickTimers hrun⟩
  · rw [htick, State.setSt_dt, State.setDt_dt, countDown_toNat]
  · rw [htick, State.setSt_st, countDown_toNat]
  · exact (State.soundExpire_iff hrun).trans BitVec.toNat_inj.symm
  · exact s.soundActive_iff.trans BitVec.toNat_ne_iff_ne.symm
  · rw [htick, State.setSt_pc, State.setDt_pc]

/-! `setKey` (R187) -/

/-- Settles O57: an index below 16 sets that element of the latch; any other index is no latch's and is refused. -/
theorem setKeyWritesOneLatch : Obligations.SetKeyWritesOneLatch := by
  intro s k b hrun
  by_cases hk : k < 16
  · rw [s.setKey_running k b hrun hk]
    refine ⟨fun j => ?_, rfl, fun hk' => by omega⟩
    exact (Vector.getElem_set hk j.isLt).trans (if_congr eq_comm rfl rfl)
  · rw [s.setKey_refused k b (.inr (Nat.not_lt.mp hk))]
    refine ⟨fun j => ?_, rfl, fun _ => rfl⟩
    rw [if_neg (by omega)]

end Sys2Proof.Machine
end

section
/-! PROOFS. A program comes into memory and runs (70_reset_and_hazards.md): what `load` does, and the first step after a reset and
a `load`. -/

namespace Sys2Proof.Machine

/-! `load` (R203 to R205) -/

/-- Settles O58: an accepted `load` is one write of consecutive bytes from 512 on. -/
theorem loadCopiesOrRejects : Obligations.LoadCopiesOrRejects := by
  refine fun s bytes => ⟨fun hrun hlen => ?_, fun h => ?_⟩
  · rw [s.load_accepted bytes hrun hlen]
    exact ⟨rfl, s.mem.read_writeBytes_inside 512 bytes, s.mem.read_writeBytes_outside 512 bytes, rfl⟩
  · exact s.load_rejected bytes (h.imp_left eq_true_of_ne_false)

/-! The first step of a loaded program (R206) -/

/-- Memory that holds an instruction's two bytes and more at an address holds the instruction's word there. -/
theorem Memory.bigEndian_read_writeBytes_encodeBytes (m : Memory) (a : Nat) (i : Instr) (rest : List Byte) :
    bigEndian ((m.writeBytes a (encodeBytes i ++ rest)).read a) ((m.writeBytes a (encodeBytes i ++ rest)).read (a + 1)) =
      encode i := by
  have hlen : (encodeBytes i ++ rest).length = rest.length + 2 := rfl
  have hhi := m.read_writeBytes_inside a (encodeBytes i ++ rest) 0 (by omega)
  have hlo := m.read_writeBytes_inside a (encodeBytes i ++ rest) 1 (by omega)
  exact (congrArg₂ bigEndian hhi hlo).trans (bigEndian_wordBytes (encode i))

/-- Settles O60: a reset machine runs with PC at 512, where the `load` has put the instruction's word. -/
theorem firstStepRunsTheLoadedProgram : Obligations.FirstStepRunsTheLoadedProgram := by
  intro s i rest hrest
  have hlen : (encodeBytes i ++ rest).length ≤ 3584 := Nat.add_le_add_right hrest 2
  rw [s.hostReset.load_accepted (encodeBytes i ++ rest) s.hostReset_running hlen]
  refine stepRunsTheDecodedInstruction _ i s.hostReset_running (show 512 ≤ 4094 by decide) ?_
  have hword := s.hostReset.mem.bigEndian_read_writeBytes_encodeBytes 512 i rest
  exact (congrArg decodeWord hword).trans (decodeWord_encode i)

end Sys2Proof.Machine
end
